-- ==== Sys2Proof/Word.lean ====
section
/-! DEFINITION. The word types of the block (00_scope.md R5, R7, R8; 10_state.md R13 to R26): names for bit
vectors and bounded indexes, nothing else. -/

namespace Sys2Proof

/-- An 8-bit quantity: a register, a cache cell, an operand field, an immediate (R8). -/
abbrev Byte := BitVec 8

/-- An instruction word, 24 bits (R54). -/
abbrev InstrWord := BitVec 24

/-- The instruction pointer, 9 bits unsigned (R15). -/
abbrev Ip := BitVec 9

/-- A program bound, 10 bits two's complement (R22). -/
abbrev Bound := BitVec 10

/-- A general register index 0..5; the assembler writes register `n - 1` as `Rn` (R13, R58). -/
abbrev Reg := Fin 6

/-- A cache index 0..255 (R19). -/
abbrev CacheIndex := Fin 256

/-- An instruction address 0..255 (R21). -/
abbrev SlotAddr := Fin 256

end Sys2Proof
end

