-- ==== Sys2Proof/Syntax.lean ====
section
/-! DEFINITION. The eight instruction forms (00_scope.md R2), the raw three-field record a word holds
(30_encoding.md R54, R55) and the three ways it can fail to decode (R61 to R64). -/

namespace Sys2Proof

/-- A decoded instruction, one constructor per row of the opcode table, operands in the order of the word's fields
(R56, R57). Register numbers outside 0..5 do not decode (R62), so a register operand is a `Reg`. -/
inductive Instr where
  /-- MOV Rd, imm (R94). -/
  | mov (d : Reg) (imm : Byte)
  /-- ADD Rd, Rs: ADD-register (R96). -/
  | add (d s : Reg)
  /-- ADD Rd, imm: ADD-immediate, the table's ADDI (R98). -/
  | addi (d : Reg) (imm : Byte)
  /-- LD Rd, [Rm] (R108). -/
  | ld (d m : Reg)
  /-- ST [Rm], Rs: the memory identifier first (R110). -/
  | st (m s : Reg)
  /-- CMP Rd, Rs (R101). -/
  | cmp (d s : Reg)
  /-- JE t: `t` is the 8-bit pattern of the target, read as signed when executed (R60, R103). -/
  | je (t : Byte)
  /-- JMP t (R105). -/
  | jmp (t : Byte)
  deriving DecidableEq, Repr

/-- The three fields of an instruction word (R54): opcode, operand 0, operand 1. -/
structure Fields where
  op  : Byte
  op0 : Byte
  op1 : Byte
  deriving DecidableEq, Repr

/-- Why a word does not decode (R61). Each is taken as a fault of the block when the word is executed (R84). -/
inductive DecodeFault where
  /-- `op` above 0x07 (R63). -/
  | illegalOpcode
  /-- A register or memory-identifier field above 5 (R62). -/
  | illegalRegister
  /-- JE or JMP with `op1` not 0x00 (R64). -/
  | reservedNonzero
  deriving DecidableEq, Repr

end Sys2Proof
end

