-- ==== Sys2Proof/Decode.lean ====
section
/-! DEFINITION. The instruction word, its decoder and its encoder (30_encoding.md R54 to R69; 20_memory.md R37). -/

namespace Sys2Proof

/-- The fields of a word: `op = word[23:16]`, `op0 = word[15:8]`, `op1 = word[7:0]` (R54). -/
def fieldsOfWord (w : InstrWord) : Fields where
  op  := w.extractLsb' 16 8
  op0 := w.extractLsb' 8 8
  op1 := w.extractLsb' 0 8

/-- `word = {op, op0, op1}` (R54). -/
def wordOfFields (f : Fields) : InstrWord := f.op ++ f.op0 ++ f.op1

/-- A register field, or a memory identifier, decodes to the index `u8(field)` when that is 0..5 (R58, R62). -/
def decodeReg (f : Byte) : Except DecodeFault Reg :=
  if h : f.toNat < 6 then .ok ⟨f.toNat, h⟩ else .error .illegalRegister

/-- A reserved field must be 0x00 (R64). -/
def decodeReserved (f : Byte) : Except DecodeFault Unit :=
  if f = 0x00#8 then .ok () else .error .reservedNonzero

/-- The decoder on a record of fields (R61), reporting the first fault in the order of R68. -/
def decodeFields (f : Fields) : Except DecodeFault Instr :=
  match f.op.toNat with
  | 0 => do return .mov (← decodeReg f.op0) f.op1
  | 1 => do return .add (← decodeReg f.op0) (← decodeReg f.op1)
  | 2 => do return .addi (← decodeReg f.op0) f.op1
  | 3 => do return .ld (← decodeReg f.op0) (← decodeReg f.op1)
  | 4 => do return .st (← decodeReg f.op0) (← decodeReg f.op1)
  | 5 => do return .cmp (← decodeReg f.op0) (← decodeReg f.op1)
  | 6 => do decodeReserved f.op1; return .je f.op0
  | 7 => do decodeReserved f.op1; return .jmp f.op0
  | _ => .error .illegalOpcode

/-- `Decode(word)` (R61): total on every 24-bit word. -/
def decode (w : InstrWord) : Except DecodeFault Instr := decodeFields (fieldsOfWord w)

/-- The bytes of a word as a host sends them: opcode first (R37). -/
def bytesOfWord (w : InstrWord) : List Byte :=
  [(fieldsOfWord w).op, (fieldsOfWord w).op0, (fieldsOfWord w).op1]

/-- The word a host sends as three bytes, opcode first (R37), with the bytes left over; none for fewer than three. -/
def wordOfBytes (bs : List Byte) : Option (InstrWord × List Byte) :=
  match bs with
  | op :: op0 :: op1 :: rest => some (wordOfFields ⟨op, op0, op1⟩, rest)
  | _                        => none

/-- The decoder on bytes, total on any list: none where there are fewer than three. -/
def decodeBytes (bs : List Byte) : Option (Except DecodeFault Instr × List Byte) :=
  (wordOfBytes bs).map fun (w, rest) => (decode w, rest)

/-- A register index as a field. -/
def encodeReg (r : Reg) : Byte := BitVec.ofNat 8 r.val

/-- The encoder's table: each instruction's fields, reserved fields 0x00 (R56, R57, R69). -/
def encodeFields (i : Instr) : Fields :=
  match i with
  | .mov d imm  => ⟨0x00#8, encodeReg d, imm⟩
  | .add d s    => ⟨0x01#8, encodeReg d, encodeReg s⟩
  | .addi d imm => ⟨0x02#8, encodeReg d, imm⟩
  | .ld d m     => ⟨0x03#8, encodeReg d, encodeReg m⟩
  | .st m s     => ⟨0x04#8, encodeReg m, encodeReg s⟩
  | .cmp d s    => ⟨0x05#8, encodeReg d, encodeReg s⟩
  | .je t       => ⟨0x06#8, t, 0x00#8⟩
  | .jmp t      => ⟨0x07#8, t, 0x00#8⟩

/-- `Encode(i)` (R69). -/
def encode (i : Instr) : InstrWord := wordOfFields (encodeFields i)

/-- The word whose bits are the low `nbits` bits of `w`, numbered as the opcode table numbers them; none when the
table would give more than the 24 bits a word has (log 10). -/
def tableWord (nbits w : Nat) : Option InstrWord :=
  if nbits ≤ 24 then some (BitVec.ofNat 24 (w % 2 ^ nbits)) else none

/-- The instruction this decoder reads from the word whose bits are `w` (log 10). -/
def decodeTableWord (nbits w : Nat) : Option Instr :=
  match tableWord nbits w with
  | some word =>
    match decode word with
    | .ok i    => some i
    | .error _ => none
  | none => none

end Sys2Proof
end

