-- ==== Sys2Proof/Machine/Bits.lean ====
section
/-! DEFINITION. Readings of a byte and the way back (00_scope.md R8). -/

namespace Sys2Proof.Machine

/-- `s8(b)`: `b - 256` if `b[7] = 1`, else `b`; range -128..127 (R8). -/
def s8 (b : Byte) : Int := if b.getLsbD 7 then (b.toNat : Int) - 256 else b.toNat

/-- `u8(b)`: range 0..255 (R8). -/
def u8 (b : Byte) : Nat := b.toNat

/-- `trunc8(n)`: the byte pattern `n mod 256` of a mathematical integer (R8). -/
def trunc8 (n : Int) : Byte := BitVec.ofInt 8 n

end Sys2Proof.Machine
end

