-- ==== Sys2Proof/Machine/Sparse.lean ====
section
/-! DEFINITION. An array indexed by natural numbers, held as a list of (index, content) pairs in one canonical form
(log 2): indexes strictly rising, no entry equal to what an unlisted index reads as. CACHE, VALID and IMEM (10_state.md
R19, R20, R21) are three such arrays of 256 entries. -/

namespace Sys2Proof.Machine

/-- What index `a` holds: the first entry listed for it, else `unlisted a`. -/
def Sparse.read {α : Type} (unlisted : Nat → α) (l : List (Nat × α)) (a : Nat) : α :=
  match l with
  | []          => unlisted a
  | (k, v) :: r => if k = a then v else Sparse.read unlisted r a

/-- The list with no entry for index `a`. -/
def Sparse.drop {α : Type} (l : List (Nat × α)) (a : Nat) : List (Nat × α) :=
  l.filter fun e => decide (e.1 ≠ a)

/-- The list with an entry for `a` put before the first entry of a higher index. -/
def Sparse.put {α : Type} (l : List (Nat × α)) (a : Nat) (v : α) : List (Nat × α) :=
  match l with
  | []     => [(a, v)]
  | e :: r => if a < e.1 then (a, v) :: e :: r else e :: Sparse.put r a v

/-- Write `v` at index `a`; a value an unlisted index would read as leaves no entry. -/
def Sparse.write {α : Type} [DecidableEq α] (unlisted : Nat → α) (l : List (Nat × α)) (a : Nat) (v : α) :
    List (Nat × α) :=
  if v = unlisted a then Sparse.drop l a else Sparse.put (Sparse.drop l a) a v

/-- The canonical form of an array of 256 entries. -/
abbrev Sparse.wf {α : Type} (unlisted : Nat → α) (l : List (Nat × α)) : Prop :=
  l.Pairwise (fun e f => e.1 < f.1) ∧ ∀ e ∈ l, e.1 < 256 ∧ e.2 ≠ unlisted e.1

end Sys2Proof.Machine
end

