-- ==== Sys2Proof/Config.lean ====
section
/-! DEFINITION. The four configuration parameters of the block (00_scope.md R6): arguments of the model, fixed for a
whole run. The spec leaves no free value (40_execution_cycle.md R89), so this file holds none. -/

namespace Sys2Proof

/-- ADDR_MODE: how LD and ST form the cache index (R6, R107). -/
inductive AddrMode where
  /-- The index is the register's identifier (the default). -/
  | identifier
  /-- The index is the register's value. -/
  | registerValue
  deriving DecidableEq, Repr

/-- INDEX_POLICY: what a negative register value used as an index does; read only in `registerValue` mode (R6, R107). -/
inductive IndexPolicy where
  /-- The value modulo 256 (the default). -/
  | mask
  /-- INDEX_OUT_OF_RANGE. -/
  | reject
  deriving DecidableEq, Repr

/-- CNT_WIDTH: the width of each counter; "the model may take it as unbounded" (R6, R91). -/
inductive CounterWidth where
  /-- `w` bits, counting modulo `2 ^ w`. -/
  | bits (w : Nat)
  /-- Unbounded non-negative integers. -/
  | unbounded
  deriving DecidableEq, Repr

/-- The configuration (R6). -/
structure Config where
  addrMode     : AddrMode
  indexPolicy  : IndexPolicy
  /-- CACHE_INIT: the cache's contents after reset, as (index, byte) pairs; an index that is not listed holds the
  default 0x00, so every array of 256 bytes is some such list (log 2). -/
  cacheInit    : List (Nat × Byte)
  counterWidth : CounterWidth
  deriving DecidableEq, Repr

/-- The defaults of R6: Identifier, Mask, every byte 0x00, 32 bits. -/
def Config.default : Config where
  addrMode     := .identifier
  indexPolicy  := .mask
  cacheInit    := []
  counterWidth := .bits 32

end Sys2Proof
end

