-- ==== Sys2Proof/Machine/State.lean ====
section
/-! DEFINITION. The state of the block (10_state.md R13 to R31) and its value after reset (R28, R29, R30). -/

namespace Sys2Proof.Machine

/-- One instruction slot of IMEM (R21). -/
structure Slot where
  present : Bool
  word    : InstrWord
  deriving DecidableEq, Repr

/-- RUN_STATE (R23). -/
inductive RunState where
  /-- 0: after reset; the host may Load and Start. -/
  | idle
  /-- 1: steps execute instructions. -/
  | running
  /-- 2: the run ended normally. -/
  | halted
  /-- 3: the run ended with a fault. -/
  | faulted
  deriving DecidableEq, Repr

/-- FAULT_CAUSE (R24, R113): values 0..6; value 7 "is never produced" and is left out (log 8). -/
inductive FaultCause where
  /-- 0 NONE: no fault has occurred. -/
  | noFault
  /-- 1 ILLEGAL_OPCODE. -/
  | illegalOpcode
  /-- 2 ILLEGAL_REGISTER. -/
  | illegalRegister
  /-- 3 RESERVED_NONZERO. -/
  | reservedNonzero
  /-- 4 JUMP_TARGET_INVALID. -/
  | jumpTargetInvalid
  /-- 5 FETCH_UNMAPPED. -/
  | fetchUnmapped
  /-- 6 INDEX_OUT_OF_RANGE. -/
  | indexOutOfRange
  deriving DecidableEq, Repr

/-- The reasons a step of the MODEL could stop with a fault: there are none, and the type has no constructor. Every
fault of the block is a state the spec describes (60_exceptions.md R114) and so a next state (log 3, safe). -/
inductive Fault where
  deriving DecidableEq, Repr

/-- The reasons the model could refuse an instruction. -/
inductive Refusal where
  /-- The instruction of this mnemonic has no meaning yet: answered by an arm of `exec` and by nothing else. No arm
  answers it now. Safe: it claims nothing of the instruction. -/
  | notModelled (mnemonic : String)
  deriving DecidableEq, Repr

/-- The data store as a list of (index, byte) pairs in canonical form (log 2). -/
abbrev Memory := List Host.Cell

/-- The architectural state (R31), each field under the rule that names it, and the configuration (log 1). -/
structure State where
  /-- ADDR_MODE, INDEX_POLICY, CACHE_INIT, CNT_WIDTH (R6): not state of the spec, never changed (log 1). -/
  config     : Config
  /-- The general registers (R13). -/
  x          : Vector Byte 6
  /-- EQ (R17). -/
  eq         : Bool
  /-- IP (R15). -/
  ip         : Ip
  /-- CACHE (R19): an unlisted index reads as CACHE_INIT (log 2). -/
  cache      : Memory
  /-- VALID (R20): an unlisted index reads as 0 (log 2). -/
  valid      : List (Nat × Bool)
  /-- IMEM (R21): an unlisted address reads as an absent slot with word 0 (log 2). -/
  imem       : List (Nat × Slot)
  /-- ENTRY (R22). -/
  entry      : Bound
  /-- EXIT (R22). -/
  exit       : Bound
  /-- RUN_STATE (R23). -/
  runState   : RunState
  /-- FAULT_CAUSE (R24). -/
  faultCause : FaultCause
  /-- FAULT_IP (R25). -/
  faultIp    : Ip
  /-- EXEC (R26). -/
  execCount  : Nat
  /-- CYCLES (R26). -/
  cycles     : Nat
  /-- HITS (R26). -/
  hits       : Nat
  /-- LDST (R26). -/
  ldst       : Nat
  deriving DecidableEq, Repr

/-- The state after reset under a configuration (R28, R29, R30, R129). -/
def State.resetWith (c : Config) : State where
  config     := c
  x          := Vector.replicate 6 0
  eq         := false
  ip         := 0
  cache      := []
  valid      := []
  imem       := []
  entry      := BitVec.ofInt 10 256
  exit       := BitVec.ofInt 10 (-1)
  runState   := .idle
  faultCause := .noFault
  faultIp    := 0
  execCount  := 0
  cycles     := 0
  hits       := 0
  ldst       := 0

/-- The machine right after reset, under the default configuration of R6. -/
def State.reset : State := State.resetWith Config.default

end Sys2Proof.Machine
end

