-- ==== Sys2Proof/Machine/Ops.lean ====
section
/-! DEFINITION. The named operations over the state: registers (10_state.md R13), the data store and its classifier
(20_memory.md R38 to R41), the instruction store (10_state.md R21, R22), the counters (R26), raising a fault
(60_exceptions.md R114), committing a step (40_execution_cycle.md R81, R86, R87) and fetching (R83, R84). -/

namespace Sys2Proof.Machine

/-! ### Registers -/

/-- Read `x[r]` (R9). -/
def getReg (s : State) (r : Reg) : Byte := s.x[r]

/-- `x[r] <- v` (R9). No register is hardwired (R13). -/
def setReg (s : State) (r : Reg) (v : Byte) : State := { s with x := s.x.set r v }

/-! ### The data store -/

/-- What an unlisted cache index reads as: CACHE_INIT, whose own default is 0x00 in every cell (R6, R29). -/
def cacheUnlisted (c : Config) (a : Nat) : Byte := Sparse.read (fun _ => 0#8) c.cacheInit a

/-- The canonical form of the data store under a configuration (log 2). -/
abbrev Memory.wf (c : Config) (m : Memory) : Prop := Sparse.wf (cacheUnlisted c) m

/-- `MemRead(idx, 1)`: the byte `CACHE[idx]`; changes no state (R40). -/
def memRead (s : State) (idx : CacheIndex) : Byte := Sparse.read (cacheUnlisted s.config) s.cache idx.val

/-- `MemWrite(idx, 1, v)`: `CACHE[idx] <- v` and nothing else (R41). -/
def memWrite (s : State) (idx : CacheIndex) (v : Byte) : State :=
  { s with cache := Sparse.write (cacheUnlisted s.config) s.cache idx.val v }

/-- What an unlisted VALID bit reads as: not yet touched (R20, R29). -/
def validUnlisted (_ : Nat) : Bool := false

/-- `VALID[idx]` (R20). -/
def validAt (s : State) (idx : CacheIndex) : Bool := Sparse.read validUnlisted s.valid idx.val

/-- `VALID[idx] <- 1` (R39). -/
def touch (s : State) (idx : CacheIndex) : State :=
  { s with valid := Sparse.write validUnlisted s.valid idx.val true }

/-- `Classify(idx)`: whether the index was touched before, and the state with it marked touched (R39). -/
def classify (s : State) (idx : CacheIndex) : Bool × State := (validAt s idx, touch s idx)

/-- HIT_COST (R5). -/
def hitCost : Nat := 2

/-- MISS_COST (R5). -/
def missCost : Nat := 40

/-- The cost of an access: 2 on a hit, 40 on a miss (R42, R85). -/
def accessCost (hit : Bool) : Nat := if hit then hitCost else missCost

/-! ### The instruction store -/

/-- What an unlisted instruction address reads as: an absent slot with word 0x000000 (R29). -/
def slotUnlisted (_ : Nat) : Slot := ⟨false, 0#24⟩

/-- `IMEM[a]` (R21). -/
def slotAt (s : State) (a : Nat) : Slot := Sparse.read slotUnlisted s.imem a

/-- `IMEM[a] <- {present: 1, word: w}` with `ENTRY <- min(ENTRY, a)` and `EXIT <- max(EXIT, a)`, the bounds compared
as integers (R10, R22, R133). -/
def storeWord (s : State) (a : SlotAddr) (w : InstrWord) : State :=
  { s with
    imem  := Sparse.write slotUnlisted s.imem a.val ⟨true, w⟩
    entry := if (a.val : Int) < s.entry.toInt then BitVec.ofInt 10 a.val else s.entry
    exit  := if s.exit.toInt < (a.val : Int) then BitVec.ofInt 10 a.val else s.exit }

/-! ### Counters -/

/-- A counter of the given width after counting `n` more: modulo `2 ^ CNT_WIDTH`, or exact when unbounded (R26, R86,
R91). -/
def countAdd (w : CounterWidth) (c n : Nat) : Nat :=
  match w with
  | .bits k    => (c + n) % 2 ^ k
  | .unbounded => c + n

/-! ### Faults -/

/-- The cause a decode fault is recorded under (R113). -/
def decodeCause (f : DecodeFault) : FaultCause :=
  match f with
  | .illegalOpcode   => .illegalOpcode
  | .illegalRegister => .illegalRegister
  | .reservedNonzero => .reservedNonzero

/-- The code of a cause in FAULT_CAUSE (R113). -/
def faultCode (c : FaultCause) : BitVec 3 :=
  match c with
  | .noFault           => 0
  | .illegalOpcode     => 1
  | .illegalRegister   => 2
  | .reservedNonzero   => 3
  | .jumpTargetInvalid => 4
  | .fetchUnmapped     => 5
  | .indexOutOfRange   => 6

/-- The value of RUN_STATE (R23). -/
def runStateCode (r : RunState) : BitVec 2 :=
  match r with
  | .idle    => 0
  | .running => 1
  | .halted  => 2
  | .faulted => 3

/-- `raise Fault(c)` (R114): the run state, the cause and the address of the faulting instruction; no other state
changes. There is no return from a fault (R116). -/
def raiseFault (c : FaultCause) (s : State) : State :=
  { s with runState := .faulted, faultCause := c, faultIp := s.ip }

/-! ### The step -/

/-- `pc + 1`, in 9 bits (R93). -/
def nextSequential (s : State) : Ip := s.ip + 1#9

/-- The end of a step that raised no fault, on the state that already holds the instruction's own writes: the counter
updates of R86, `pc <- next_pc`, and HALTED if that is greater than EXIT (R81, R87). -/
def commit (s : State) (nextPc : Ip) (cost : Nat) (hit isMem : Bool) : State :=
  { s with
    execCount := countAdd s.config.counterWidth s.execCount 1
    cycles    := countAdd s.config.counterWidth s.cycles cost
    hits      := countAdd s.config.counterWidth s.hits (if hit then 1 else 0)
    ldst      := countAdd s.config.counterWidth s.ldst (if isMem then 1 else 0)
    ip        := nextPc
    runState  := if s.exit.toInt < (nextPc.toNat : Int) then .halted else s.runState }

/-- Fetch: the word of slot `IMEM[IP]`, or FETCH_UNMAPPED when the slot is not present (R83). -/
def fetch (s : State) : Except FaultCause InstrWord :=
  if (slotAt s s.ip.toNat).present then .ok (slotAt s s.ip.toNat).word else .error .fetchUnmapped

/-- Fetch and decode: the fetch fault first, then the decoder's (R81, R84, R115). -/
def fetchDecode (s : State) : Except FaultCause Instr :=
  match fetch s with
  | .error c => .error c
  | .ok w =>
    match decode w with
    | .error f => .error (decodeCause f)
    | .ok i    => .ok i

/-- Step is accepted only in RUNNING (R80, R135). -/
def acceptsStep (s : State) : Bool := decide (s.runState = .running)

/-- The state `s` set up so that its very next step fetches `word` (log 5): the word stored and the bounds narrowed as
Load does at the address IP holds (address 0 where IP holds no slot's address), and RUN_STATE = RUNNING. -/
def placeForFetch (s : State) (word : InstrWord) : State :=
  let a : SlotAddr := if h : s.ip.toNat < 256 then ⟨s.ip.toNat, h⟩ else 0
  { storeWord s a word with ip := BitVec.ofNat 9 a.val, runState := .running }

end Sys2Proof.Machine
end

