-- ==== Sys2Proof/Machine/Flags.lean ====
section
/-! DEFINITION. The ALU (40_execution_cycle.md R92) and the flag setter (10_state.md R17, R18). -/

namespace Sys2Proof.Machine

/-- The ALU's operations (R92). There is no other (R100). -/
inductive AluOp where
  | add
  | passB
  | eq
  deriving DecidableEq, Repr

/-- An ALU result: 8 bits or 1 bit (R92). -/
inductive AluResult where
  | byte (b : Byte)
  | bit (b : Bool)
  deriving DecidableEq, Repr

/-- ADD: `trunc8(s8(a) + s8(b))`; wraps, sets no flag, does not trap (R92, R100). -/
def aluAdd (a b : Byte) : Byte := trunc8 (s8 a + s8 b)

/-- PASS_B: the second operand (R92). -/
def aluPassB (b : Byte) : Byte := b

/-- EQ: all 8 bits compared (R92). -/
def aluEq (a b : Byte) : Bool := decide (a = b)

/-- The ALU as one unit (R92). -/
def alu (op : AluOp) (a b : Byte) : AluResult :=
  match op with
  | .add   => .byte (aluAdd a b)
  | .passB => .byte (aluPassB b)
  | .eq    => .bit (aluEq a b)

/-- `EQ <- b` (R9): the only write of the flag (R17). -/
def setEq (s : State) (b : Bool) : State := { s with eq := b }

end Sys2Proof.Machine
end

