-- ==== Sys2Proof/Machine/Operands.lean ====
section
/-! DEFINITION. The operand forms that are resolved when an instruction executes: the cache index of `[Rm]`
(43_load_store.md R107) and the target of a taken jump (42_compare_branch.md R106). -/

namespace Sys2Proof.Machine

/-- `Index(m)` (R107): the identifier itself, or the value of `x[m]` under the index policy. -/
def formIndex (s : State) (m : Reg) : Except FaultCause CacheIndex :=
  match s.config.addrMode with
  | .identifier => .ok ⟨m.val, by omega⟩
  | .registerValue =>
    match s.config.indexPolicy with
    | .mask   => .ok ⟨u8 (getReg s m), (getReg s m).isLt⟩
    | .reject =>
      if s8 (getReg s m) < 0 then .error .indexOutOfRange
      else .ok ⟨u8 (getReg s m), (getReg s m).isLt⟩

/-- The slot at an integer address is present; a negative address has no slot (R21, R106). -/
def presentAt (s : State) (t : Int) : Bool := decide (0 ≤ t) && (slotAt s t.toNat).present

/-- `ResolveTarget(t)` for the target pattern `f`, with `t = s8(f)`, compared as integers with ENTRY and EXIT (R60,
R106). The value is put in the 9-bit IP; in a state a run can be in it is 0..127 and fits (log 6). -/
def resolveTarget (s : State) (f : Byte) : Except FaultCause Ip :=
  if s.exit.toInt < s8 f then .ok (BitVec.ofInt 9 (s8 f))
  else if s8 f < s.entry.toInt || !presentAt s (s8 f) then .error .jumpTargetInvalid
  else .ok (BitVec.ofInt 9 (s8 f))

end Sys2Proof.Machine
end

