-- ==== Sys2Proof/Machine/CompareBranch.lean ====
section
/-! DEFINITION. CMP, JE, JMP (42_compare_branch.md R101 to R106). -/

namespace Sys2Proof.Machine

/-- CMP Rd, Rs: `EQ <- (x[d] = x[s])`, cost 2, no register written (R101, R102). -/
def execCmp (d r : Reg) (s : State) : Host.Outcome State Fault Refusal :=
  .next (commit (setEq s (aluEq (getReg s d) (getReg s r))) (nextSequential s) 2 false false)

/-- Control passes to the target pattern `f`, or JUMP_TARGET_INVALID is raised and nothing is committed; cost 1 (R103,
R105, R106, R114). -/
def jumpTo (f : Byte) (s : State) : State :=
  match resolveTarget s f with
  | .ok t    => commit s t 1 false false
  | .error c => raiseFault c s

/-- JE t: to the target if EQ = 1, else on to the next instruction, the target not checked; cost 1 (R103, R104). -/
def execJe (t : Byte) (s : State) : Host.Outcome State Fault Refusal :=
  .next (if s.eq then jumpTo t s else commit s (nextSequential s) 1 false false)

/-- JMP t (R105). -/
def execJmp (t : Byte) (s : State) : Host.Outcome State Fault Refusal :=
  .next (jumpTo t s)

end Sys2Proof.Machine
end

