-- ==== Sys2Proof/Machine/LoadStore.lean ====
section
/-! DEFINITION. LD and ST (43_load_store.md R107 to R111). -/

namespace Sys2Proof.Machine

/-- LD Rd, [Rm]: `x[d] <- CACHE[Index(m)]`, the index classified and marked touched; cost 2 on a hit, 40 on a miss. A
faulting index commits nothing, not even its VALID bit (R108, R109). -/
def execLd (d m : Reg) (s : State) : Host.Outcome State Fault Refusal :=
  match formIndex s m with
  | .error c => .next (raiseFault c s)
  | .ok idx =>
    let (hit, touched) := classify s idx
    .next (commit (setReg touched d (memRead s idx)) (nextSequential s) (accessCost hit) hit true)

/-- ST [Rm], Rs: `CACHE[Index(m)] <- x[s]` on a hit and on a miss alike; cost as for LD (R110, R111). -/
def execSt (m r : Reg) (s : State) : Host.Outcome State Fault Refusal :=
  match formIndex s m with
  | .error c => .next (raiseFault c s)
  | .ok idx =>
    let (hit, touched) := classify s idx
    .next (commit (memWrite touched idx (getReg s r)) (nextSequential s) (accessCost hit) hit true)

end Sys2Proof.Machine
end

