-- ==== Sys2Proof/Machine/RegisterAlu.lean ====
section
/-! DEFINITION. MOV, ADD-register, ADD-immediate (41_register_alu.md R94 to R100). None of them can fault once it has
decoded. -/

namespace Sys2Proof.Machine

/-- MOV Rd, imm: `x[d] <- imm`, cost 1 (R94, R95). -/
def execMov (d : Reg) (imm : Byte) (s : State) : Host.Outcome State Fault Refusal :=
  .next (commit (setReg s d (aluPassB imm)) (nextSequential s) 1 false false)

/-- ADD Rd, Rs: `x[d] <- trunc8(s8(x[d]) + s8(x[s]))`, both operands read before the write, cost 1 (R96, R97). -/
def execAdd (d r : Reg) (s : State) : Host.Outcome State Fault Refusal :=
  .next (commit (setReg s d (aluAdd (getReg s d) (getReg s r))) (nextSequential s) 1 false false)

/-- ADD Rd, imm: `x[d] <- trunc8(s8(x[d]) + s8(imm))`, cost 1 (R98, R99). -/
def execAddi (d : Reg) (imm : Byte) (s : State) : Host.Outcome State Fault Refusal :=
  .next (commit (setReg s d (aluAdd (getReg s d) imm)) (nextSequential s) 1 false false)

end Sys2Proof.Machine
end

