-- ==== Sys2Proof/Machine/Dispatch.lean ====
section
/-! DEFINITION. One arm per constructor of Instr, each one call of the instruction's meaning (00_scope.md R2). -/

namespace Sys2Proof.Machine

def exec (i : Instr) (s : State) : Host.Outcome State Fault Refusal :=
  match i with
  | .mov d imm => Sys2Proof.Machine.execMov d imm s
  | .add d r => Sys2Proof.Machine.execAdd d r s
  | .addi d imm => Sys2Proof.Machine.execAddi d imm s
  | .ld d m => Sys2Proof.Machine.execLd d m s
  | .st m r => Sys2Proof.Machine.execSt m r s
  | .cmp d r => Sys2Proof.Machine.execCmp d r s
  | .je t => Sys2Proof.Machine.execJe t s
  | .jmp t => Sys2Proof.Machine.execJmp t s

end Sys2Proof.Machine
end

