-- ==== Sys2Proof/Machine/Step.lean ====
section
/-! DEFINITION. One step of the block (40_execution_cycle.md R80, R81): the host's operation Step
(70_reset_and_hazards.md R135). -/

namespace Sys2Proof.Machine

/-- In RUNNING: fetch, decode, execute and commit, or raise one fault (R81). In IDLE, HALTED and FAULTED nothing
changes (R135, log 4). -/
def step (s : State) : Host.Outcome State Fault Refusal :=
  if acceptsStep s then
    match fetchDecode s with
    | .ok i    => exec i s
    | .error c => .next (raiseFault c s)
  else .next s

/-- `s` with the word whose bits are `w` placed so that the very next step runs it (log 5); `s` itself when the table
would give more bits than a word has (log 10). -/
def State.withFetchWord (s : State) (nbits w : Nat) : State :=
  match tableWord nbits w with
  | some word => placeForFetch s word
  | none      => s

end Sys2Proof.Machine
end

