-- ==== Sys2Proof/Machine/HostPort.lean ====
section
/-! DEFINITION. The host's side: the five operations (70_reset_and_hazards.md R128 to R137), their rendering as ports
(R132), the values the report reads (R128) and the boot sequence (R139). -/

namespace Sys2Proof.Machine

/-! ### The operations -/

/-- `Reset`, in any run state: every piece of state at its reset value; the configuration stays (R129, R6, log 14). -/
def hostReset (s : State) : State := State.resetWith s.config

/-- `Load(a, w)`: accepted only in IDLE, ignored otherwise; the word is not checked (R133). -/
def hostLoad (a : SlotAddr) (w : InstrWord) (s : State) : State :=
  if s.runState = .idle then storeWord s a w else s

/-- `Start`: accepted only in IDLE, ignored otherwise. IP becomes ENTRY, and the run begins, or ends at once when
ENTRY is greater than EXIT (R82, R134). -/
def hostStart (s : State) : State :=
  if s.runState = .idle then
    { s with
      ip       := BitVec.ofInt 9 s.entry.toInt
      runState := if s.entry.toInt ≤ s.exit.toInt then .running else .halted }
  else s

/-- `Step` as an operation on the state (R135): the state `step` answers. -/
def hostStep (s : State) : State :=
  match step s with
  | .next t    => t
  | .fault _   => s
  | .refused _ => s

/-- The state items `Observe` can read (R136). -/
inductive Query where
  | reg (r : Reg)
  | eq
  | ip
  | cacheCell (idx : CacheIndex)
  | validBit (idx : CacheIndex)
  | slot (a : SlotAddr)
  | entry
  | exit
  | runState
  | faultCause
  | faultIp
  | execCount
  | cycles
  | hits
  | ldst
  deriving DecidableEq, Repr

/-- What `Observe` answers. -/
inductive Reading where
  | byte (v : Byte)
  | bit (v : Bool)
  | ip (v : Ip)
  | slot (v : Slot)
  | bound (v : Bound)
  | runState (v : RunState)
  | faultCause (v : FaultCause)
  | counter (v : Nat)
  deriving DecidableEq, Repr

/-- `Observe(q)`: the current value; `Classify` is not called (R136, R43). -/
def observe (q : Query) (s : State) : Reading :=
  match q with
  | .reg r         => .byte (getReg s r)
  | .eq            => .bit s.eq
  | .ip            => .ip s.ip
  | .cacheCell idx => .byte (memRead s idx)
  | .validBit idx  => .bit (validAt s idx)
  | .slot a        => .slot (slotAt s a.val)
  | .entry         => .bound s.entry
  | .exit          => .bound s.exit
  | .runState      => .runState s.runState
  | .faultCause    => .faultCause s.faultCause
  | .faultIp       => .ip s.faultIp
  | .execCount     => .counter s.execCount
  | .cycles        => .counter s.cycles
  | .hits          => .counter s.hits
  | .ldst          => .counter s.ldst

/-- The host's five operations (R131). -/
inductive HostOp where
  | reset
  | load (a : SlotAddr) (w : InstrWord)
  | start
  | step
  | observe (q : Query)
  deriving DecidableEq, Repr

/-- One operation on the state (R131); `Observe` changes nothing (R136). -/
def applyOp (s : State) (op : HostOp) : State :=
  match op with
  | .reset     => hostReset s
  | .load a w  => hostLoad a w s
  | .start     => hostStart s
  | .step      => hostStep s
  | .observe _ => s

/-- Operations one at a time, in the order the host issues them (R131). -/
def applyOps (s : State) (ops : List HostOp) : State := ops.foldl applyOp s

/-! ### Ports -/

/-- The input ports (R132). -/
structure PortIn where
  rst        : Bool
  loadEn     : Bool
  loadAddr   : BitVec 8
  loadWord   : InstrWord
  start      : Bool
  step       : Bool
  obsRegSel  : BitVec 3
  obsMemSel  : BitVec 8
  obsImemSel : BitVec 8
  deriving DecidableEq, Repr

/-- The output ports (R132). -/
structure PortOut where
  runState   : BitVec 2
  faultCause : BitVec 3
  faultIp    : Ip
  ip         : Ip
  eq         : Bool
  entry      : Bound
  exit       : Bound
  execCount  : Nat
  cycleCount : Nat
  hitCount   : Nat
  ldstCount  : Nat
  obsReg     : Byte
  obsMem     : Byte
  obsValid   : Bool
  obsPresent : Bool
  obsWord    : InstrWord
  deriving DecidableEq, Repr

/-- The operations the ports request at once, in the priority Reset, Load, Start, Step (R131, log 9). -/
def requestedOps (p : PortIn) : List HostOp :=
  (if p.rst then [.reset] else []) ++
  (if p.loadEn then [.load p.loadAddr.toFin p.loadWord] else []) ++
  (if p.start then [.start] else []) ++
  (if p.step then [.step] else [])

/-- The state after the requests of one presentation of the input ports (R131, R132). -/
def portApply (p : PortIn) (s : State) : State := applyOps s (requestedOps p)

/-- The output ports in a state, for the selects on the input ports; `obs_reg` is 0 when `obs_reg_sel > 5` (R132). -/
def portOut (p : PortIn) (s : State) : PortOut where
  runState   := runStateCode s.runState
  faultCause := faultCode s.faultCause
  faultIp    := s.faultIp
  ip         := s.ip
  eq         := s.eq
  entry      := s.entry
  exit       := s.exit
  execCount  := s.execCount
  cycleCount := s.cycles
  hitCount   := s.hits
  ldstCount  := s.ldst
  obsReg     := if h : p.obsRegSel.toNat < 6 then getReg s ⟨p.obsRegSel.toNat, h⟩ else 0#8
  obsMem     := memRead s p.obsMemSel.toFin
  obsValid   := validAt s p.obsMemSel.toFin
  obsPresent := (slotAt s p.obsImemSel.toNat).present
  obsWord    := (slotAt s p.obsImemSel.toNat).word

/-! ### The report and the end of a run -/

/-- The five values of the source's report (R128). -/
structure Report where
  /-- `EXIT - ENTRY + 1`: counts the present slots only when the program has no gaps. -/
  instructionsInCode : Int
  executed           : Nat
  cycles             : Nat
  hits               : Nat
  loadsAndStores     : Nat
  deriving DecidableEq, Repr

/-- The values the report reads (R128). -/
def reportValues (s : State) : Report where
  instructionsInCode := s.exit.toInt - s.entry.toInt + 1
  executed           := s.execCount
  cycles             := s.cycles
  hits               := s.hits
  loadsAndStores     := s.ldst

/-- A run has ended exactly in HALTED or FAULTED (R126). -/
def runEnded (s : State) : Bool := decide (s.runState = .halted) || decide (s.runState = .faulted)

/-- The report of a run: none unless it ended in HALTED ("no partial report is produced", R126). -/
def runReport (s : State) : Option Report := if s.runState = .halted then some (reportValues s) else none

/-! ### Boot -/

/-- Load every (address, word) of a program (R139 step 2). -/
def loadAll (s : State) (words : List (SlotAddr × InstrWord)) : State :=
  words.foldl (fun t p => hostLoad p.1 p.2 t) s

/-- The boot sequence up to the first step: Reset, a Load for each word, Start (R139). -/
def boot (words : List (SlotAddr × InstrWord)) (s : State) : State := hostStart (loadAll (hostReset s) words)

end Sys2Proof.Machine
end

