-- ==== Sys2Proof/Machine/Assembler.lean ====
section
/-! DEFINITION. The assembler syntax of the block and the word each line assembles to (30_encoding.md R70 to R79). The
assembler is outside the hardware (00_scope.md R4); the machine never calls this file. Text is a list of characters;
a line that is not of the documented form is `none`: a fatal assembly error (R79, log 11). -/

namespace Sys2Proof.Machine

/-- The value of a decimal digit. -/
def asmDigit (c : Char) : Option Nat :=
  if 48 ≤ c.toNat ∧ c.toNat ≤ 57 then some (c.toNat - 48) else none

/-- The value of the remaining digits of a decimal literal, after `acc`. -/
def asmDigits (acc : Nat) (cs : List Char) : Option Nat :=
  match cs with
  | []      => some acc
  | c :: r  =>
    match asmDigit c with
    | some d => asmDigits (10 * acc + d) r
    | none   => none

/-- One or more decimal digits. -/
def asmNat (cs : List Char) : Option Nat :=
  match cs with
  | [] => none
  | _  => asmDigits 0 cs

/-- An address token: a decimal integer in 0..255 (R71). -/
def asmAddr (cs : List Char) : Option SlotAddr :=
  match asmNat cs with
  | some n => if h : n < 256 then some ⟨n, h⟩ else none
  | none   => none

/-- A register token: `R` and one digit 1..6, field value one less (R73). -/
def asmReg (cs : List Char) : Option Reg :=
  match cs with
  | ['R', c] =>
    match asmDigit c with
    | some n => if h : 1 ≤ n ∧ n ≤ 6 then some ⟨n - 1, by omega⟩ else none
    | none   => none
  | _ => none

/-- An immediate or target token: an optional `-` and one or more decimal digits, value in -128..127, assembled as
`trunc8(value)` (R74). -/
def asmImm (cs : List Char) : Option Byte :=
  match cs with
  | '-' :: r =>
    match asmNat r with
    | some n => if n ≤ 128 then some (trunc8 (-(n : Int))) else none
    | none   => none
  | _ =>
    match asmNat cs with
    | some n => if n ≤ 127 then some (trunc8 (n : Int)) else none
    | none   => none

/-- A bracketed token: `[`, a register token, `]`; its value is the identifier, not what the register holds (R77). -/
def asmBracket (cs : List Char) : Option Reg :=
  match cs with
  | ['[', a, b, ']'] => asmReg [a, b]
  | _                => none

/-- The text before and after the first of the given characters. -/
def asmCut (stops : List Char) (cs : List Char) : Option (List Char × List Char) :=
  match cs with
  | []     => none
  | c :: r =>
    if c ∈ stops then some ([], r)
    else
      match asmCut stops r with
      | some (a, b) => some (c :: a, b)
      | none        => none

/-- Two operands, separated by a comma and one space (R70). -/
def asmTwo (cs : List Char) : Option (List Char × List Char) :=
  match asmCut [','] cs with
  | some (a, ' ' :: b) => some (a, b)
  | _                  => none

/-- MOV Rn, imm (R75). -/
def asmMov (ops : List Char) : Option Instr := do
  let (a, b) ← asmTwo ops
  return .mov (← asmReg a) (← asmImm b)

/-- ADD: a second token that begins with the register letter makes it ADD-register, any other ADD-immediate (R76). -/
def asmAdd (ops : List Char) : Option Instr := do
  let (a, b) ← asmTwo ops
  let d ← asmReg a
  match b with
  | 'R' :: _ => return .add d (← asmReg b)
  | _        => return .addi d (← asmImm b)

/-- LD Rn, [Rm] (R75). -/
def asmLd (ops : List Char) : Option Instr := do
  let (a, b) ← asmTwo ops
  return .ld (← asmReg a) (← asmBracket b)

/-- ST [Rm], Rn (R75). -/
def asmSt (ops : List Char) : Option Instr := do
  let (a, b) ← asmTwo ops
  return .st (← asmBracket a) (← asmReg b)

/-- CMP Rn, Rm (R75). -/
def asmCmp (ops : List Char) : Option Instr := do
  let (a, b) ← asmTwo ops
  return .cmp (← asmReg a) (← asmReg b)

/-- A mnemonic, in capitals, and its operands (R72, R75, R78). -/
def asmInstr (mnemonic ops : List Char) : Option Instr :=
  if mnemonic = ['M', 'O', 'V'] then asmMov ops
  else if mnemonic = ['A', 'D', 'D'] then asmAdd ops
  else if mnemonic = ['L', 'D'] then asmLd ops
  else if mnemonic = ['S', 'T'] then asmSt ops
  else if mnemonic = ['C', 'M', 'P'] then asmCmp ops
  else if mnemonic = ['J', 'E'] then (asmImm ops).map .je
  else if mnemonic = ['J', 'M', 'P'] then (asmImm ops).map .jmp
  else none

/-- One line: the address, one space or tab, the mnemonic, one space, the operands (R70). -/
def asmLine (line : List Char) : Option (SlotAddr × Instr) := do
  let (addr, rest) ← asmCut [' ', '\t'] line
  let (mnemonic, ops) ← asmCut [' '] rest
  return (← asmAddr addr, ← asmInstr mnemonic ops)

/-- The lines of a text; a newline ends a line, and the last line may go without one (R70, log 11). -/
def asmSplit (cs : List Char) : List (List Char) :=
  match cs with
  | []        => []
  | '\n' :: r => [] :: asmSplit r
  | c :: r    =>
    match asmSplit r with
    | l :: ls => (c :: l) :: ls
    | []      => [[c]]

/-- Every line assembled, in order; one bad line is fatal (R79). -/
def asmLines (lines : List (List Char)) : Option (List (SlotAddr × Instr)) :=
  match lines with
  | []      => some []
  | l :: ls =>
    match asmLine l, asmLines ls with
    | some p, some ps => some (p :: ps)
    | _, _            => none

/-- The program as (address, word) pairs; two lines with one address are an assembly error (R71, R79). -/
def assemble (lines : List (List Char)) : Option (List (SlotAddr × InstrWord)) :=
  match asmLines lines with
  | some ps => if (ps.map Prod.fst).Nodup then some (ps.map fun p => (p.1, encode p.2)) else none
  | none    => none

/-- Assemble and boot: none, with nothing loaded or started, on an assembly error (R79, R139). -/
def assembleAndBoot (text : List Char) (s : State) : Option State :=
  (assemble (asmSplit text)).map fun words => boot words s

/-! ### The way back -/

/-- The character of a digit. -/
def asmDigitChar (d : Nat) : Char := Char.ofNat (48 + d)

/-- A number below 1000 in decimal, without leading zeros. -/
def asmNatText (n : Nat) : List Char :=
  if n < 10 then [asmDigitChar n]
  else if n < 100 then [asmDigitChar (n / 10), asmDigitChar (n % 10)]
  else [asmDigitChar (n / 100), asmDigitChar (n / 10 % 10), asmDigitChar (n % 10)]

/-- A register as the assembler writes it: `Rn` has field value `n - 1` (R58). -/
def asmRegText (r : Reg) : List Char := ['R', asmDigitChar (r.val + 1)]

/-- An immediate or target as the assembler writes it: its signed value (R74). -/
def asmImmText (b : Byte) : List Char :=
  if s8 b < 0 then '-' :: asmNatText (s8 b).natAbs else asmNatText (s8 b).natAbs

/-- The documented form of an instruction (R75). -/
def asmInstrText (i : Instr) : List Char :=
  match i with
  | .mov d imm  => ['M', 'O', 'V', ' '] ++ asmRegText d ++ [',', ' '] ++ asmImmText imm
  | .add d s    => ['A', 'D', 'D', ' '] ++ asmRegText d ++ [',', ' '] ++ asmRegText s
  | .addi d imm => ['A', 'D', 'D', ' '] ++ asmRegText d ++ [',', ' '] ++ asmImmText imm
  | .ld d m     => ['L', 'D', ' '] ++ asmRegText d ++ [',', ' ', '['] ++ asmRegText m ++ [']']
  | .st m s     => ['S', 'T', ' ', '['] ++ asmRegText m ++ [']', ',', ' '] ++ asmRegText s
  | .cmp d s    => ['C', 'M', 'P', ' '] ++ asmRegText d ++ [',', ' '] ++ asmRegText s
  | .je t       => ['J', 'E', ' '] ++ asmImmText t
  | .jmp t      => ['J', 'M', 'P', ' '] ++ asmImmText t

/-- The line of an instruction at an address, written with one tab after the address as in the source's example
(R70). -/
def asmLineText (a : SlotAddr) (i : Instr) : List Char := asmNatText a.val ++ ['\t'] ++ asmInstrText i

end Sys2Proof.Machine
end

