-- ==== Sys2Proof/Machine/Control.lean ====
section
/-! DEFINITION. The decoder's outputs: the control record of a legal word (30_encoding.md R67). An output the table marks
`-` ("not driven, with no effect") is `none` (log 15). -/

namespace Sys2Proof.Machine

/-- The `kind` output. -/
inductive Kind where
  | MOV | ADDR | ADDI | LD | ST | CMP | JE | JMP
  deriving DecidableEq, Repr

/-- The `alu_b` output: where the ALU's second operand comes from. -/
inductive AluB where
  | imm (v : Byte)
  | reg (r : Reg)
  deriving DecidableEq, Repr

/-- The `branch` output. -/
inductive Branch where
  | none
  | ifEq
  | always
  deriving DecidableEq, Repr

/-- The `base_cost` output (R85). -/
inductive BaseCost where
  | fixed (n : Nat)
  | byHit
  deriving DecidableEq, Repr

/-- The control record (R67). -/
structure Control where
  kind     : Kind
  rd       : Option Reg
  rs       : Option Reg
  rm       : Option Reg
  imm      : Option Byte
  target   : Option Int
  aluOp    : Option AluOp
  aluB     : Option AluB
  regWe    : Bool
  flagWe   : Bool
  memRd    : Bool
  memWr    : Bool
  branch   : Branch
  baseCost : BaseCost
  deriving DecidableEq, Repr

/-- The control record of each instruction (R67). -/
def controlRecord (i : Instr) : Control :=
  match i with
  | .mov d imm =>
    { kind := .MOV, rd := some d, rs := none, rm := none, imm := some imm, target := none, aluOp := some .passB,
      aluB := some (.imm imm), regWe := true, flagWe := false, memRd := false, memWr := false, branch := .none,
      baseCost := .fixed 1 }
  | .add d s =>
    { kind := .ADDR, rd := some d, rs := some s, rm := none, imm := none, target := none, aluOp := some .add,
      aluB := some (.reg s), regWe := true, flagWe := false, memRd := false, memWr := false, branch := .none,
      baseCost := .fixed 1 }
  | .addi d imm =>
    { kind := .ADDI, rd := some d, rs := none, rm := none, imm := some imm, target := none, aluOp := some .add,
      aluB := some (.imm imm), regWe := true, flagWe := false, memRd := false, memWr := false, branch := .none,
      baseCost := .fixed 1 }
  | .ld d m =>
    { kind := .LD, rd := some d, rs := none, rm := some m, imm := none, target := none, aluOp := none,
      aluB := none, regWe := true, flagWe := false, memRd := true, memWr := false, branch := .none,
      baseCost := .byHit }
  | .st m s =>
    { kind := .ST, rd := none, rs := some s, rm := some m, imm := none, target := none, aluOp := none,
      aluB := none, regWe := false, flagWe := false, memRd := false, memWr := true, branch := .none,
      baseCost := .byHit }
  | .cmp d s =>
    { kind := .CMP, rd := some d, rs := some s, rm := none, imm := none, target := none, aluOp := some .eq,
      aluB := some (.reg s), regWe := false, flagWe := true, memRd := false, memWr := false, branch := .none,
      baseCost := .fixed 2 }
  | .je t =>
    { kind := .JE, rd := none, rs := none, rm := none, imm := none, target := some (s8 t), aluOp := none,
      aluB := none, regWe := false, flagWe := false, memRd := false, memWr := false, branch := .ifEq,
      baseCost := .fixed 1 }
  | .jmp t =>
    { kind := .JMP, rd := none, rs := none, rm := none, imm := none, target := some (s8 t), aluOp := none,
      aluB := none, regWe := false, flagWe := false, memRd := false, memWr := false, branch := .always,
      baseCost := .fixed 1 }

/-- The decoder's outputs for a word (R61, R67). -/
def decodeControl (w : InstrWord) : Except DecodeFault Control := (decode w).map controlRecord

/-- The value on the ALU's second input in a state (R67). -/
def aluBValue (s : State) (b : AluB) : Byte :=
  match b with
  | .imm v => v
  | .reg r => getReg s r

/-- The cost a control record gives an access that hit or missed (R67, R85). -/
def BaseCost.amount (b : BaseCost) (hit : Bool) : Nat :=
  match b with
  | .fixed n => n
  | .byHit   => accessCost hit

end Sys2Proof.Machine
end

