-- ==== Sys2Proof/Safety.lean ====
section
/-! DEFINITION. The terms claims are stated in: what a completed instruction changes and leaves alone, the invariant of
the machine, a run and what it completed. Nothing here is called by the machine. -/

namespace Sys2Proof.Machine

/-! ### What stays as it was -/

/-- Every general register but `d` reads as before. -/
def SameRegsBut (d : Reg) (s t : State) : Prop := ∀ r : Reg, r ≠ d → getReg t r = getReg s r

/-- Every general register reads as before. -/
def SameRegs (s t : State) : Prop := ∀ r : Reg, getReg t r = getReg s r

/-- Every byte of the data store reads as before. -/
def SameCache (s t : State) : Prop := ∀ idx : CacheIndex, memRead t idx = memRead s idx

/-- Every byte of the data store but the one at `j` reads as before. -/
def SameCacheBut (j : CacheIndex) (s t : State) : Prop := ∀ idx : CacheIndex, idx ≠ j → memRead t idx = memRead s idx

/-- Every validity bit reads as before. -/
def SameValid (s t : State) : Prop := ∀ idx : CacheIndex, validAt t idx = validAt s idx

/-- Every validity bit but the one at `j` reads as before. -/
def SameValidBut (j : CacheIndex) (s t : State) : Prop :=
  ∀ idx : CacheIndex, idx ≠ j → validAt t idx = validAt s idx

/-- Every slot of the instruction store, its bounds and the configuration are as before (R21, R22, R52). -/
structure SameProgram (s t : State) : Prop where
  config : t.config = s.config
  slots  : ∀ a : Nat, slotAt t a = slotAt s a
  entry  : t.entry = s.entry
  exit   : t.exit = s.exit

/-- `t` is `s` after an instruction that completed with this next IP, cost and hit (R81, R86, R87): the counters, the
pointer and the run state; and no completed instruction touches the program or the fault record. -/
structure Completed (s t : State) (nextPc : Ip) (cost : Nat) (hit isMem : Bool) : Prop where
  execCount  : t.execCount = countAdd s.config.counterWidth s.execCount 1
  cycles     : t.cycles = countAdd s.config.counterWidth s.cycles cost
  hits       : t.hits = countAdd s.config.counterWidth s.hits (if hit = true then 1 else 0)
  ldst       : t.ldst = countAdd s.config.counterWidth s.ldst (if isMem = true then 1 else 0)
  ip         : t.ip = nextPc
  runState   : t.runState = if s.exit.toInt < (nextPc.toNat : Int) then .halted else s.runState
  program    : SameProgram s t
  faultCause : t.faultCause = s.faultCause
  faultIp    : t.faultIp = s.faultIp

/-- `t` is `s` after `raise Fault(c)`: three fields written and everything else as before (R114). -/
structure FaultedWith (c : FaultCause) (s t : State) : Prop where
  runState   : t.runState = .faulted
  faultCause : t.faultCause = c
  faultIp    : t.faultIp = s.ip
  regs       : SameRegs s t
  flag       : t.eq = s.eq
  ip         : t.ip = s.ip
  cache      : SameCache s t
  valid      : SameValid s t
  program    : SameProgram s t
  execCount  : t.execCount = s.execCount
  cycles     : t.cycles = s.cycles
  hits       : t.hits = s.hits
  ldst       : t.ldst = s.ldst

/-! ### The invariant -/

/-- A value a counter of this width can hold (R26). -/
def counterHolds (w : CounterWidth) (n : Nat) : Prop :=
  match w with
  | .bits k    => n < 2 ^ k
  | .unbounded => True

/-- How many cache indexes have been touched. -/
def touchedCount (s : State) : Nat := (Finset.univ.filter fun idx : CacheIndex => validAt s idx = true).card

/-- What holds of every state the block can be in. -/
structure State.Inv (s : State) : Prop where
  /-- The three arrays are in canonical form (log 2). -/
  cacheCanonical : Memory.wf s.config s.cache
  validCanonical : Sparse.wf validUnlisted s.valid
  imemCanonical  : Sparse.wf slotUnlisted s.imem
  /-- No present slot lies outside ENTRY..EXIT (R22). -/
  presentInside  : ∀ a : SlotAddr, (slotAt s a.val).present = true →
    s.entry.toInt ≤ (a.val : Int) ∧ (a.val : Int) ≤ s.exit.toInt
  /-- The bounds are the sentinels, or are themselves present slots in 0..255 (R22). -/
  bounds         : (s.entry.toInt = 256 ∧ s.exit.toInt = -1) ∨
    (0 ≤ s.entry.toInt ∧ s.entry.toInt ≤ s.exit.toInt ∧ s.exit.toInt ≤ 255 ∧
      presentAt s s.entry.toInt = true ∧ presentAt s s.exit.toInt = true)
  /-- IP holds 0..256 (R15). -/
  ipRange        : s.ip.toNat ≤ 256
  /-- In IDLE only Load has acted since reset (R125, R133). -/
  idle           : s.runState = .idle →
    s = { State.resetWith s.config with imem := s.imem, entry := s.entry, exit := s.exit }
  /-- In RUNNING, `ENTRY <= IP <= EXIT` (R15). -/
  running        : s.runState = .running →
    s.entry.toInt ≤ (s.ip.toNat : Int) ∧ (s.ip.toNat : Int) ≤ s.exit.toInt
  /-- In HALTED, `IP > EXIT` (R15, R87). -/
  halted         : s.runState = .halted → s.exit.toInt < (s.ip.toNat : Int)
  /-- In FAULTED the record names a cause and the instruction IP still points at (R114). -/
  faulted        : s.runState = .faulted →
    s.faultCause ≠ .noFault ∧ s.faultIp = s.ip ∧
      s.entry.toInt ≤ (s.ip.toNat : Int) ∧ (s.ip.toNat : Int) ≤ s.exit.toInt
  /-- In no other run state does the record name a cause (R24, R25). -/
  faultFree      : s.runState ≠ .faulted → s.faultCause = .noFault ∧ s.faultIp = 0
  /-- Each counter holds a value of its width (R26). -/
  countersFit    : counterHolds s.config.counterWidth s.execCount ∧ counterHolds s.config.counterWidth s.cycles ∧
    counterHolds s.config.counterWidth s.hits ∧ counterHolds s.config.counterWidth s.ldst
  /-- A cell whose index has not been touched holds CACHE_INIT (R29, R39). -/
  untouched      : ∀ idx : CacheIndex, validAt s idx = false → memRead s idx = cacheUnlisted s.config idx.val
  /-- In Identifier mode only indexes 0..5 are touched (R35). -/
  identifierMode : s.config.addrMode = .identifier → ∀ idx : CacheIndex, validAt s idx = true → idx.val ≤ 5
  /-- In RegisterValue mode with Reject only indexes 0..127 are touched (R35). -/
  rejectMode     : s.config.addrMode = .registerValue → s.config.indexPolicy = .reject →
    ∀ idx : CacheIndex, validAt s idx = true → idx.val ≤ 127
  /-- With unbounded counters, loads and stores are the hits and one miss for each touched index, and each is an
  executed instruction (R42, R145). -/
  accounts       : s.config.counterWidth = .unbounded →
    s.ldst = s.hits + touchedCount s ∧ s.ldst ≤ s.execCount

/-! ### Runs -/

/-- The state after `k` Step operations (R135). -/
def runFor (k : Nat) (s : State) : State :=
  match k with
  | 0     => s
  | k + 1 => runFor k (hostStep s)

/-- An instruction that completed, and whether its access hit. -/
structure Retired where
  instr : Instr
  hit   : Bool
  deriving DecidableEq, Repr

/-- Whether the access of LD or ST through `[Rm]` would hit. -/
def accessHits (s : State) (m : Reg) : Bool :=
  match formIndex s m with
  | .ok idx  => validAt s idx
  | .error _ => false

/-- What an instruction retires as. -/
def retiredAs (i : Instr) (s : State) : Retired :=
  match i with
  | .ld _ m => ⟨i, accessHits s m⟩
  | .st m _ => ⟨i, accessHits s m⟩
  | .mov _ _ | .add _ _ | .addi _ _ | .cmp _ _ | .je _ | .jmp _ => ⟨i, false⟩

/-- What the next step completes; none if the block is not RUNNING or the step faults. -/
def completedBy (s : State) : Option Retired :=
  if acceptsStep s then
    match fetchDecode s with
    | .ok i    => if (hostStep s).runState = .faulted then none else some (retiredAs i s)
    | .error _ => none
  else none

/-- What `k` steps complete, in order. -/
def retiredIn (k : Nat) (s : State) : List Retired :=
  match k with
  | 0     => []
  | k + 1 => (completedBy s).toList ++ retiredIn k (hostStep s)

/-- The cost of a completed instruction, from the table of R85. -/
def Retired.cost (r : Retired) : Nat :=
  match r.instr with
  | .mov _ _ | .add _ _ | .addi _ _ | .je _ | .jmp _ => 1
  | .cmp _ _ => 2
  | .ld _ _ | .st _ _ => if r.hit then 2 else 40

/-- MOV, ADD-register or ADD-immediate. -/
def isMovAddInstr (i : Instr) : Bool :=
  match i with
  | .mov _ _ | .add _ _ | .addi _ _ => true
  | .ld _ _ | .st _ _ | .cmp _ _ | .je _ | .jmp _ => false

/-- An instruction of cost 1: MOV, ADD-register, ADD-immediate, JE or JMP (R145). -/
def isOneCostInstr (i : Instr) : Bool :=
  match i with
  | .mov _ _ | .add _ _ | .addi _ _ | .je _ | .jmp _ => true
  | .ld _ _ | .st _ _ | .cmp _ _ => false

/-- CMP. -/
def isCmpInstr (i : Instr) : Bool :=
  match i with
  | .cmp _ _ => true
  | .mov _ _ | .add _ _ | .addi _ _ | .ld _ _ | .st _ _ | .je _ | .jmp _ => false

/-- LD or ST. -/
def isMemInstr (i : Instr) : Bool :=
  match i with
  | .ld _ _ | .st _ _ => true
  | .mov _ _ | .add _ _ | .addi _ _ | .cmp _ _ | .je _ | .jmp _ => false

/-- A run is safe so far: it has not ended in FAULTED (R112, R126). -/
def State.safe (s : State) : Bool := decide (s.runState ≠ .faulted)

end Sys2Proof.Machine
end

