-- ==== Sys2Proof/WellFormed.lean ====
section
/-! DEFINITION. Which raw instruction records are legal (30_encoding.md R57, R62, R63, R64, R65). A decoded `Instr`
needs no check of its own: its register operands are `Reg`, so it cannot hold an illegal one; the checks stand on the
record of fields, where an ill-formed term can be written. The table of roles here is a transcription of R57 separate
from the decoder's. -/

namespace Sys2Proof

/-- The role of a field (R57). -/
inductive FieldRole where
  /-- `d` or `s`: a general register. -/
  | register
  /-- `m`: a memory identifier, legal for the same values as a register (R62). -/
  | memoryId
  /-- `imm`: any byte (R59). -/
  | immediate
  /-- `t`: any byte (R60). -/
  | target
  /-- Not used: must be 0x00 (R64). -/
  | reserved
  deriving DecidableEq, Repr

/-- The values a field of each role may hold (R59, R60, R62, R64). -/
def FieldRole.admits (r : FieldRole) (f : Byte) : Bool :=
  match r with
  | .register | .memoryId => decide (f.toNat ≤ 5)
  | .immediate | .target  => true
  | .reserved             => decide (f = 0x00#8)

/-- The roles of `op0` and `op1` under each opcode (R56, R57); none for an illegal opcode. -/
def fieldRoles (op : Byte) : Option (FieldRole × FieldRole) :=
  match op.toNat with
  | 0 => some (.register, .immediate)
  | 1 => some (.register, .register)
  | 2 => some (.register, .immediate)
  | 3 => some (.register, .memoryId)
  | 4 => some (.memoryId, .register)
  | 5 => some (.register, .register)
  | 6 => some (.target, .reserved)
  | 7 => some (.target, .reserved)
  | _ => none

/-- The opcode is one of 0x00..0x07 (R63). -/
def Fields.opcodeLegal (f : Fields) : Bool := (fieldRoles f.op).isSome

/-- `op0` holds a value its role admits. -/
def Fields.op0Legal (f : Fields) : Bool :=
  match fieldRoles f.op with
  | some (r, _) => r.admits f.op0
  | none        => false

/-- `op1` holds a value its role admits. -/
def Fields.op1Legal (f : Fields) : Bool :=
  match fieldRoles f.op with
  | some (_, r) => r.admits f.op1
  | none        => false

/-- A legal record: the three checks together (R65). -/
def Fields.wellFormed (f : Fields) : Bool := f.opcodeLegal && f.op0Legal && f.op1Legal

end Sys2Proof
end

