-- ==== Sys2Proof/Certificates/Slice0/Obligations.lean ====
section
/-! DEFINITION. The statements for the provers. `Completed s t n c h m` and `FaultedWith c s t` (Safety.lean) say what an
instruction that completed, and one that faulted, left in the state. -/

open Sys2Proof Sys2Proof.Machine

/-! ### The instruction word -/

/-- R69: the encoder's words, and decode and encode undo each other. -/
def Obligations.DecodeAndEncodeAgree : Prop :=
  (∀ (d : Reg) (imm : Byte), encode (.mov d imm) = 0x00#8 ++ BitVec.ofNat 8 d.val ++ imm) ∧
  (∀ d s : Reg, encode (.add d s) = 0x01#8 ++ BitVec.ofNat 8 d.val ++ BitVec.ofNat 8 s.val) ∧
  (∀ (d : Reg) (imm : Byte), encode (.addi d imm) = 0x02#8 ++ BitVec.ofNat 8 d.val ++ imm) ∧
  (∀ d m : Reg, encode (.ld d m) = 0x03#8 ++ BitVec.ofNat 8 d.val ++ BitVec.ofNat 8 m.val) ∧
  (∀ m s : Reg, encode (.st m s) = 0x04#8 ++ BitVec.ofNat 8 m.val ++ BitVec.ofNat 8 s.val) ∧
  (∀ d s : Reg, encode (.cmp d s) = 0x05#8 ++ BitVec.ofNat 8 d.val ++ BitVec.ofNat 8 s.val) ∧
  (∀ t : Byte, encode (.je t) = 0x06#8 ++ t ++ 0x00#8) ∧
  (∀ t : Byte, encode (.jmp t) = 0x07#8 ++ t ++ 0x00#8) ∧
  (∀ i : Instr, decode (encode i) = .ok i) ∧
  (∀ (w : InstrWord) (i : Instr), decode w = .ok i → encode i = w)

/-- R61, R62, R63, R64, R68: what each word decodes to, the first fault in the decoder's order reported. -/
def Obligations.DecodeReportsFirstFault : Prop :=
  ∀ op op0 op1 : Byte,
    (7 < op.toNat → decode (op ++ op0 ++ op1) = .error .illegalOpcode) ∧
    (op.toNat ≤ 5 → 5 < op0.toNat → decode (op ++ op0 ++ op1) = .error .illegalRegister) ∧
    (op.toNat ∈ [1, 3, 4, 5] → op0.toNat ≤ 5 → 5 < op1.toNat →
      decode (op ++ op0 ++ op1) = .error .illegalRegister) ∧
    (op.toNat ∈ [6, 7] → op1 ≠ 0x00#8 → decode (op ++ op0 ++ op1) = .error .reservedNonzero) ∧
    (op.toNat ∈ [0, 2] → op0.toNat ≤ 5 → ∃ i, decode (op ++ op0 ++ op1) = .ok i ∧ encode i = op ++ op0 ++ op1) ∧
    (op.toNat ∈ [1, 3, 4, 5] → op0.toNat ≤ 5 → op1.toNat ≤ 5 →
      ∃ i, decode (op ++ op0 ++ op1) = .ok i ∧ encode i = op ++ op0 ++ op1) ∧
    (op.toNat ∈ [6, 7] → op1 = 0x00#8 → ∃ i, decode (op ++ op0 ++ op1) = .ok i ∧ encode i = op ++ op0 ++ op1)

/-- R65: how many words of each opcode decode, how many in all, and that every other word faults when executed. -/
def Obligations.LegalWordCounts : Prop :=
  let legal (k : Nat) : Nat :=
    Set.ncard {w : InstrWord | (w.extractLsb' 16 8).toNat = k ∧ ∃ i, decode w = .ok i}
  legal 0 = 1536 ∧ legal 1 = 36 ∧ legal 2 = 1536 ∧ legal 3 = 36 ∧ legal 4 = 36 ∧ legal 5 = 36 ∧ legal 6 = 256 ∧
  legal 7 = 256 ∧ Set.ncard {w : InstrWord | ∃ i, decode w = .ok i} = 3728 ∧
  ∀ s : State, s.runState = .running → (slotAt s s.ip.toNat).present = true →
    (∀ i, decode (slotAt s s.ip.toNat).word ≠ .ok i) →
    ∃ c t, step s = .next t ∧ FaultedWith c s t ∧ c ∈ [.illegalOpcode, .illegalRegister, .reservedNonzero]

/-- The decoder agrees with the table of field roles of WellFormed.lean (R57, R65): a word decodes exactly when its
record of fields is legal. -/
def Obligations.DecodesExactlyLegalRecords : Prop :=
  ∀ w : InstrWord, (∃ i, decode w = .ok i) ↔ (fieldsOfWord w).wellFormed = true

/-- Words of 95_test_vectors.md decode as the vectors say (V-DEC-1, 2, 3, 5, 6, 7, 8, 9, 10, 11, W1, W2). -/
def Obligations.SpecVectorWordsDecode : Prop :=
  decode 0x000005#24 = .ok (.mov 0 0x05#8) ∧ decode 0x010500#24 = .ok (.add 5 0) ∧
  decode 0x0200FF#24 = .ok (.addi 0 0xFF#8) ∧ decode 0x030100#24 = .ok (.ld 1 0) ∧
  decode 0x040203#24 = .ok (.st 2 3) ∧ decode 0x050001#24 = .ok (.cmp 0 1) ∧
  decode 0x060F00#24 = .ok (.je 0x0F#8) ∧ decode 0x07FD00#24 = .ok (.jmp 0xFD#8) ∧
  decode 0x010600#24 = .error .illegalRegister ∧ decode 0x080000#24 = .error .illegalOpcode ∧
  decode 0xFF0900#24 = .error .illegalOpcode ∧ decode 0x060F01#24 = .error .reservedNonzero ∧
  decode 0x030006#24 = .error .illegalRegister ∧ decode 0x040600#24 = .error .illegalRegister

/-- The bytes of a word, opcode first, give the word back (20_memory.md, the bytewise load order of R37). -/
def Obligations.WordBytesOpcodeFirst : Prop :=
  ∀ (w : InstrWord) (rest : List Byte),
    bytesOfWord w = [w.extractLsb' 16 8, w.extractLsb' 8 8, w.extractLsb' 0 8] ∧
    wordOfBytes (bytesOfWord w ++ rest) = some (w, rest)

/-! ### Reset -/

/-- R28, R29, R30, R129: every piece of state after Reset, whatever it was before. -/
def Obligations.ResetGivesEveryItsValue : Prop :=
  ∀ s : State,
    (∀ r : Reg, getReg (hostReset s) r = 0x00#8) ∧ (hostReset s).eq = false ∧ (hostReset s).ip = 0 ∧
    (∀ idx : CacheIndex, memRead (hostReset s) idx = cacheUnlisted s.config idx.val) ∧
    (∀ idx : CacheIndex, validAt (hostReset s) idx = false) ∧
    (∀ a : SlotAddr, slotAt (hostReset s) a.val = ⟨false, 0x000000#24⟩) ∧
    (hostReset s).entry.toInt = 256 ∧ (hostReset s).exit.toInt = -1 ∧ (hostReset s).runState = .idle ∧
    (hostReset s).faultCause = .noFault ∧ (hostReset s).faultIp = 0 ∧
    (hostReset s).execCount = 0 ∧ (hostReset s).cycles = 0 ∧ (hostReset s).hits = 0 ∧ (hostReset s).ldst = 0 ∧
    State.reset = hostReset State.reset ∧ (∀ a : Nat, cacheUnlisted State.reset.config a = 0x00#8)

/-! ### Register and ALU instructions -/

/-- R94: MOV, whole: its words, its fault at decode, its effect on every state, and its frame. -/
def Obligations.MovLoadsImmediate : Prop :=
  (∀ (d : Reg) (imm : Byte), decode (0x00#8 ++ BitVec.ofNat 8 d.val ++ imm) = .ok (.mov d imm)) ∧
  (∀ f imm : Byte, 5 < f.toNat → decode (0x00#8 ++ f ++ imm) = .error .illegalRegister) ∧
  ∀ (d : Reg) (imm : Byte) (s : State), ∃ t, exec (.mov d imm) s = .next t ∧
    getReg t d = imm ∧ SameRegsBut d s t ∧ t.eq = s.eq ∧ SameCache s t ∧ SameValid s t ∧
    Completed s t (s.ip + 1#9) 1 false false

/-- R96: ADD-register, whole. -/
def Obligations.AddRegisterWraps : Prop :=
  (∀ d r : Reg, decode (0x01#8 ++ BitVec.ofNat 8 d.val ++ BitVec.ofNat 8 r.val) = .ok (.add d r)) ∧
  (∀ f g : Byte, 5 < f.toNat ∨ 5 < g.toNat → decode (0x01#8 ++ f ++ g) = .error .illegalRegister) ∧
  ∀ (d r : Reg) (s : State), ∃ t, exec (.add d r) s = .next t ∧
    getReg t d = trunc8 (s8 (getReg s d) + s8 (getReg s r)) ∧ SameRegsBut d s t ∧ t.eq = s.eq ∧
    SameCache s t ∧ SameValid s t ∧ Completed s t (s.ip + 1#9) 1 false false

/-- R98: ADD-immediate, whole. -/
def Obligations.AddImmediateWraps : Prop :=
  (∀ (d : Reg) (imm : Byte), decode (0x02#8 ++ BitVec.ofNat 8 d.val ++ imm) = .ok (.addi d imm)) ∧
  (∀ f imm : Byte, 5 < f.toNat → decode (0x02#8 ++ f ++ imm) = .error .illegalRegister) ∧
  ∀ (d : Reg) (imm : Byte) (s : State), ∃ t, exec (.addi d imm) s = .next t ∧
    getReg t d = trunc8 (s8 (getReg s d) + s8 imm) ∧ SameRegsBut d s t ∧ t.eq = s.eq ∧
    SameCache s t ∧ SameValid s t ∧ Completed s t (s.ip + 1#9) 1 false false

/-- R92, R100: the ALU's operations; the same sum whether the operands are read as signed or unsigned; subtracting a
constant 1..128 is adding its negative. -/
def Obligations.AluComputesItsTable : Prop :=
  ∀ a b : Byte,
    alu .add a b = .byte (trunc8 (s8 a + s8 b)) ∧ alu .passB a b = .byte b ∧
    alu .eq a b = .bit (if a = b then true else false) ∧ (∀ op : AluOp, op = .add ∨ op = .passB ∨ op = .eq) ∧
    trunc8 (s8 a + s8 b) = trunc8 ((u8 a : Int) + (u8 b : Int)) ∧
    (trunc8 (s8 a + s8 b)).toNat = (u8 a + u8 b) % 256 ∧
    ∀ k : Nat, 1 ≤ k → k ≤ 128 → s8 (trunc8 (-(k : Int))) = -(k : Int) ∧
      alu .add a (trunc8 (-(k : Int))) = .byte (trunc8 (s8 a - (k : Int)))

/-! ### Compare and control transfer -/

/-- R101: CMP, whole. -/
def Obligations.CmpSetsEqualityFlag : Prop :=
  (∀ d r : Reg, decode (0x05#8 ++ BitVec.ofNat 8 d.val ++ BitVec.ofNat 8 r.val) = .ok (.cmp d r)) ∧
  (∀ f g : Byte, 5 < f.toNat ∨ 5 < g.toNat → decode (0x05#8 ++ f ++ g) = .error .illegalRegister) ∧
  ∀ (d r : Reg) (s : State), ∃ t, exec (.cmp d r) s = .next t ∧
    (t.eq = true ↔ getReg s d = getReg s r) ∧ SameRegs s t ∧ SameCache s t ∧ SameValid s t ∧
    Completed s t (s.ip + 1#9) 2 false false

/-- R103: JE, whole: not taken, taken to a target R106 accepts, taken to one it rejects. -/
def Obligations.JeFollowsTheFlag : Prop :=
  (∀ f : Byte, decode (0x06#8 ++ f ++ 0x00#8) = .ok (.je f)) ∧
  (∀ f g : Byte, g ≠ 0x00#8 → decode (0x06#8 ++ f ++ g) = .error .reservedNonzero) ∧
  (∀ (f : Byte) (s : State), s.eq = false →
    ∃ t, exec (.je f) s = .next t ∧ SameRegs s t ∧ t.eq = s.eq ∧ SameCache s t ∧ SameValid s t ∧
      Completed s t (s.ip + 1#9) 1 false false) ∧
  (∀ (f : Byte) (s : State), s.eq = true →
    s.exit.toInt < s8 f ∨ (s.entry.toInt ≤ s8 f ∧ presentAt s (s8 f) = true) →
    ∃ t, exec (.je f) s = .next t ∧ SameRegs s t ∧ t.eq = s.eq ∧ SameCache s t ∧ SameValid s t ∧
      Completed s t (BitVec.ofInt 9 (s8 f)) 1 false false) ∧
  (∀ (f : Byte) (s : State), s.eq = true → s8 f ≤ s.exit.toInt →
    s8 f < s.entry.toInt ∨ presentAt s (s8 f) = false →
    ∃ t, exec (.je f) s = .next t ∧ FaultedWith .jumpTargetInvalid s t)

/-- R105: JMP, whole, with its corner cases: past EXIT it ends the run, to its own address it stays there, and no target
above 127 can be encoded. -/
def Obligations.JmpAlwaysJumps : Prop :=
  (∀ f : Byte, decode (0x07#8 ++ f ++ 0x00#8) = .ok (.jmp f)) ∧
  (∀ f g : Byte, g ≠ 0x00#8 → decode (0x07#8 ++ f ++ g) = .error .reservedNonzero) ∧
  (∀ (f : Byte) (s : State),
    s.exit.toInt < s8 f ∨ (s.entry.toInt ≤ s8 f ∧ presentAt s (s8 f) = true) →
    ∃ t, exec (.jmp f) s = .next t ∧ SameRegs s t ∧ t.eq = s.eq ∧ SameCache s t ∧ SameValid s t ∧
      Completed s t (BitVec.ofInt 9 (s8 f)) 1 false false) ∧
  (∀ (f : Byte) (s : State), s8 f ≤ s.exit.toInt →
    s8 f < s.entry.toInt ∨ presentAt s (s8 f) = false →
    ∃ t, exec (.jmp f) s = .next t ∧ FaultedWith .jumpTargetInvalid s t) ∧
  (∀ (f : Byte) (s : State), s.exit.toInt < s8 f → ∃ t, exec (.jmp f) s = .next t ∧ t.runState = .halted) ∧
  (∀ (f : Byte) (s : State), s8 f = (s.ip.toNat : Int) → s8 f ≤ s.exit.toInt → s.entry.toInt ≤ s8 f →
    presentAt s (s8 f) = true →
    ∃ t, exec (.jmp f) s = .next t ∧ t.ip = s.ip ∧ t.runState = s.runState ∧
      t.cycles = countAdd s.config.counterWidth s.cycles 1) ∧
  ∀ f : Byte, s8 f ≤ 127

/-- R106: how a target resolves, that a jump to a rejected one commits nothing, and what follows while the block is
RUNNING: an accepted target is 0..127 and IP holds
exactly it, every negative target faults, and one inside ENTRY..EXIT faults only on an empty slot. -/
def Obligations.TargetResolution : Prop :=
  (∀ (s : State) (f : Byte), s.exit.toInt < s8 f → resolveTarget s f = .ok (BitVec.ofInt 9 (s8 f))) ∧
  (∀ (s : State) (f : Byte), s8 f ≤ s.exit.toInt → s8 f < s.entry.toInt ∨ presentAt s (s8 f) = false →
    resolveTarget s f = .error .jumpTargetInvalid) ∧
  (∀ (s : State) (f : Byte), s8 f ≤ s.exit.toInt → s.entry.toInt ≤ s8 f → presentAt s (s8 f) = true →
    resolveTarget s f = .ok (BitVec.ofInt 9 (s8 f))) ∧
  (∀ (s : State) (f : Byte), resolveTarget s f = .error .jumpTargetInvalid →
    (∃ t, exec (.jmp f) s = .next t ∧ FaultedWith .jumpTargetInvalid s t) ∧
    (s.eq = true → ∃ t, exec (.je f) s = .next t ∧ FaultedWith .jumpTargetInvalid s t)) ∧
  ∀ (s : State) (f : Byte), s.Inv → s.runState = .running →
    (0 ≤ s.entry.toInt ∧ s.entry.toInt ≤ s.exit.toInt ∧ s.exit.toInt ≤ 255) ∧
    (∀ p, resolveTarget s f = .ok p → 0 ≤ s8 f ∧ s8 f ≤ 127 ∧ (p.toNat : Int) = s8 f) ∧
    (s8 f < 0 → resolveTarget s f = .error .jumpTargetInvalid) ∧
    (s.entry.toInt ≤ s8 f → s8 f ≤ s.exit.toInt →
      (resolveTarget s f = .error .jumpTargetInvalid ↔ (slotAt s f.toNat).present = false))

/-! ### Loads and stores -/

/-- R107: the index of `[Rm]` in every configuration, and the base register is never modified. -/
def Obligations.CacheIndexFormation : Prop :=
  ∀ (s : State) (m : Reg),
    (s.config.addrMode = .identifier → ∃ idx, formIndex s m = .ok idx ∧ idx.val = m.val) ∧
    (s.config.addrMode = .registerValue → s.config.indexPolicy = .mask →
      ∃ idx, formIndex s m = .ok idx ∧ idx.val = (getReg s m).toNat) ∧
    (s.config.addrMode = .registerValue → s.config.indexPolicy = .reject → s8 (getReg s m) < 0 →
      formIndex s m = .error .indexOutOfRange) ∧
    (s.config.addrMode = .registerValue → s.config.indexPolicy = .reject → 0 ≤ s8 (getReg s m) →
      ∃ idx, formIndex s m = .ok idx ∧ idx.val = (getReg s m).toNat ∧ idx.val ≤ 127) ∧
    (∀ (d : Reg) (t : State), d ≠ m → exec (.ld d m) s = .next t → getReg t m = getReg s m) ∧
    (∀ (r : Reg) (t : State), exec (.st m r) s = .next t → getReg t m = getReg s m)

/-- R108: LD, whole; the index of R107 is `formIndex s m`. -/
def Obligations.LdLoadsCacheByte : Prop :=
  (∀ d m : Reg, decode (0x03#8 ++ BitVec.ofNat 8 d.val ++ BitVec.ofNat 8 m.val) = .ok (.ld d m)) ∧
  (∀ f g : Byte, 5 < f.toNat ∨ 5 < g.toNat → decode (0x03#8 ++ f ++ g) = .error .illegalRegister) ∧
  (∀ (d m : Reg) (s : State) (idx : CacheIndex), formIndex s m = .ok idx →
    ∃ t, exec (.ld d m) s = .next t ∧
      getReg t d = memRead s idx ∧ SameRegsBut d s t ∧ t.eq = s.eq ∧ SameCache s t ∧
      validAt t idx = true ∧ SameValidBut idx s t ∧
      Completed s t (s.ip + 1#9) (if validAt s idx = true then 2 else 40) (validAt s idx) true) ∧
  (∀ (d m : Reg) (s : State), s.config.addrMode = .registerValue → s.config.indexPolicy = .reject →
    s8 (getReg s m) < 0 → ∃ t, exec (.ld d m) s = .next t ∧ FaultedWith .indexOutOfRange s t)

/-- R110: ST, whole; the address stored to is `formIndex s m`, on the state before the instruction. -/
def Obligations.StStoresRegisterByte : Prop :=
  (∀ m r : Reg, decode (0x04#8 ++ BitVec.ofNat 8 m.val ++ BitVec.ofNat 8 r.val) = .ok (.st m r)) ∧
  (∀ f g : Byte, 5 < f.toNat ∨ 5 < g.toNat → decode (0x04#8 ++ f ++ g) = .error .illegalRegister) ∧
  (∀ (m r : Reg) (s : State) (idx : CacheIndex), formIndex s m = .ok idx →
    ∃ t, exec (.st m r) s = .next t ∧
      memRead t idx = getReg s r ∧ SameCacheBut idx s t ∧ SameRegs s t ∧ t.eq = s.eq ∧
      validAt t idx = true ∧ SameValidBut idx s t ∧
      Completed s t (s.ip + 1#9) (if validAt s idx = true then 2 else 40) (validAt s idx) true) ∧
  (∀ (m r : Reg) (s : State), s.config.addrMode = .registerValue → s.config.indexPolicy = .reject →
    s8 (getReg s m) < 0 → ∃ t, exec (.st m r) s = .next t ∧ FaultedWith .indexOutOfRange s t)

/-- R39, R40, R41: the classifier and the two accesses, on every state and index. -/
def Obligations.CacheAccessPrimitives : Prop :=
  ∀ (s : State) (idx j : CacheIndex) (v : Byte),
    (classify s idx).1 = validAt s idx ∧ validAt (classify s idx).2 idx = true ∧
    (j ≠ idx → validAt (classify s idx).2 j = validAt s j) ∧ SameCache s (classify s idx).2 ∧
    memRead (memWrite s idx v) idx = v ∧ (j ≠ idx → memRead (memWrite s idx v) j = memRead s j) ∧
    SameValid s (memWrite s idx v)

/-- R49 for one pair: an LD through the register an ST went through reads what the ST stored, and hits. -/
def Obligations.LoadAfterStoreReadsTheStoredByte : Prop :=
  ∀ (s t : State) (m r d : Reg) (idx : CacheIndex), formIndex s m = .ok idx → exec (.st m r) s = .next t →
    ∃ u, exec (.ld d m) t = .next u ∧ getReg u d = getReg s r ∧ SameRegsBut d s u ∧
      Completed t u (t.ip + 1#9) 2 true true

/-- Two loads of one index with no store between them read the same byte, and the second hits (20_memory.md, the
idempotence of R43). -/
def Obligations.RepeatedLoadReadsTheSameByteAndHits : Prop :=
  ∀ (s t : State) (d d' m m' : Reg) (idx : CacheIndex), formIndex s m = .ok idx → exec (.ld d m) s = .next t →
    formIndex t m' = .ok idx →
    ∃ u, exec (.ld d' m') t = .next u ∧ getReg u d' = getReg t d ∧ SameCache s u ∧
      Completed t u (t.ip + 1#9) 2 true true

/-- R42: no operation but Reset takes a touch back; a completed access touches its index; so the first access to an
index since Reset misses and every later one hits. -/
def Obligations.FirstAccessMissesLaterAccessesHit : Prop :=
  (∀ (s : State) (idx : CacheIndex), validAt (hostReset s) idx = false) ∧
  (∀ (s : State) (ops : List HostOp) (idx : CacheIndex), HostOp.reset ∉ ops → validAt s idx = true →
    validAt (applyOps s ops) idx = true) ∧
  (∀ (s t : State) (i : Instr) (idx : CacheIndex), exec i s = .next t → validAt s idx = false →
    (validAt t idx = true ↔
      ∃ m, formIndex s m = .ok idx ∧ ((∃ d, i = .ld d m) ∨ ∃ r, i = .st m r))) ∧
  (∀ (s : State) (i : Instr) (m : Reg) (idx : CacheIndex), formIndex s m = .ok idx →
    ((∃ d, i = .ld d m) ∨ ∃ r, i = .st m r) →
    ∃ t, exec i s = .next t ∧
      t.cycles = countAdd s.config.counterWidth s.cycles (if validAt s idx = true then 2 else 40) ∧
      t.hits = countAdd s.config.counterWidth s.hits (if validAt s idx = true then 1 else 0))

/-- R109: in Identifier mode the value in `x[m]` has no effect on an LD or ST through `[Rm]`. -/
def Obligations.IdentifierModeIgnoresRegisterValue : Prop :=
  ∀ (s : State) (v : Byte), s.config.addrMode = .identifier →
    (∀ d m : Reg, m ≠ d → ∃ t, exec (.ld d m) s = .next t ∧ exec (.ld d m) (setReg s m v) = .next (setReg t m v)) ∧
    (∀ d : Reg, ∃ t, exec (.ld d d) s = .next t ∧ exec (.ld d d) (setReg s d v) = .next t) ∧
    (∀ m r : Reg, m ≠ r → ∃ t, exec (.st m r) s = .next t ∧ exec (.st m r) (setReg s m v) = .next (setReg t m v))

/-! ### The step -/

/-- A step runs the decoded instruction (R81, R84): in RUNNING, where the slot at IP is present and its word decodes to
`i`, the step is `exec i`; nothing is added around it. -/
def Obligations.StepRunsDecodedInstruction : Prop :=
  ∀ (s : State) (i : Instr), s.runState = .running → (slotAt s s.ip.toNat).present = true →
    decode (slotAt s s.ip.toNat).word = .ok i → step s = exec i s

/-- R135: in IDLE, HALTED and FAULTED a step changes nothing; in RUNNING it executes exactly one instruction or raises
one fault. -/
def Obligations.StepOnlyActsWhileRunning : Prop :=
  ∀ s : State,
    (s.runState ≠ .running → step s = .next s ∧ hostStep s = s) ∧
    (s.runState = .running →
      (∃ r t, completedBy s = some r ∧ step s = .next t ∧ exec r.instr s = .next t ∧
        fetchDecode s = .ok r.instr ∧ t.runState ≠ .faulted) ∨
      (∃ c t, completedBy s = none ∧ step s = .next t ∧ c ≠ .noFault ∧ FaultedWith c s t))

/-- No step of the model stops or refuses: whatever the state, there is a next state (R89; log 3). -/
def Obligations.EveryStepAnswersNextState : Prop :=
  (∀ s : State, ∃ t, step s = .next t) ∧ ∀ (i : Instr) (s : State), ∃ t, exec i s = .next t

/-- R86, R87: what a completed step adds to each counter, when the run halts, the two ways it gets there, and that a
faulting step counts nothing. -/
def Obligations.CompletedStepCountsItsCost : Prop :=
  (∀ (s : State) (r : Retired), completedBy s = some r →
    ∃ t, step s = .next t ∧
      t.execCount = countAdd s.config.counterWidth s.execCount 1 ∧
      t.cycles = countAdd s.config.counterWidth s.cycles r.cost ∧
      t.hits = countAdd s.config.counterWidth s.hits (if r.hit = true then 1 else 0) ∧
      t.ldst = countAdd s.config.counterWidth s.ldst (if isMemInstr r.instr = true then 1 else 0) ∧
      (t.runState = .halted ↔ s.exit.toInt < (t.ip.toNat : Int)) ∧
      (t.runState = .running ↔ (t.ip.toNat : Int) ≤ s.exit.toInt) ∧
      (s.Inv → t.runState = .halted →
        ((s.ip.toNat : Int) = s.exit.toInt ∧ (t.ip.toNat : Int) = s.exit.toInt + 1) ∨
        ∃ f, (r.instr = .jmp f ∨ (r.instr = .je f ∧ s.eq = true)) ∧ s.exit.toInt < s8 f ∧
          (t.ip.toNat : Int) = s8 f)) ∧
  ∀ s t : State, s.runState = .running → step s = .next t → t.runState = .faulted →
    t.execCount = s.execCount ∧ t.cycles = s.cycles ∧ t.hits = s.hits ∧ t.ldst = s.ldst

/-- R113, R115: which fault a step in RUNNING raises, fetch before decode before execute, and the codes. -/
def Obligations.FaultConditionsAndPriority : Prop :=
  (faultCode .noFault = 0 ∧ faultCode .illegalOpcode = 1 ∧ faultCode .illegalRegister = 2 ∧
    faultCode .reservedNonzero = 3 ∧ faultCode .jumpTargetInvalid = 4 ∧ faultCode .fetchUnmapped = 5 ∧
    faultCode .indexOutOfRange = 6 ∧ ∀ c, faultCode c ≠ 7) ∧
  ∀ (s : State) (op op0 op1 : Byte), s.runState = .running → (slotAt s s.ip.toNat).word = op ++ op0 ++ op1 →
    ((slotAt s s.ip.toNat).present = false → ∃ t, step s = .next t ∧ FaultedWith .fetchUnmapped s t) ∧
    ((slotAt s s.ip.toNat).present = true →
      (7 < op.toNat → ∃ t, step s = .next t ∧ FaultedWith .illegalOpcode s t) ∧
      (op.toNat ≤ 5 → 5 < op0.toNat → ∃ t, step s = .next t ∧ FaultedWith .illegalRegister s t) ∧
      (op.toNat ∈ [1, 3, 4, 5] → op0.toNat ≤ 5 → 5 < op1.toNat →
        ∃ t, step s = .next t ∧ FaultedWith .illegalRegister s t) ∧
      (op.toNat ∈ [6, 7] → op1 ≠ 0x00#8 → ∃ t, step s = .next t ∧ FaultedWith .reservedNonzero s t) ∧
      (op.toNat = 7 ∨ (op.toNat = 6 ∧ s.eq = true) → op1 = 0x00#8 → s8 op0 ≤ s.exit.toInt →
        s8 op0 < s.entry.toInt ∨ presentAt s (s8 op0) = false →
        ∃ t, step s = .next t ∧ FaultedWith .jumpTargetInvalid s t) ∧
      (∀ m : Reg, (op.toNat = 3 ∧ op0.toNat ≤ 5 ∧ op1.toNat = m.val) ∨
          (op.toNat = 4 ∧ op0.toNat = m.val ∧ op1.toNat ≤ 5) →
        s.config.addrMode = .registerValue → s.config.indexPolicy = .reject → s8 (getReg s m) < 0 →
        ∃ t, step s = .next t ∧ FaultedWith .indexOutOfRange s t))

/-- R114: raising a fault writes the three fields and nothing else; every step that ends in FAULTED did exactly that. -/
def Obligations.FaultsArePrecise : Prop :=
  (∀ (c : FaultCause) (s : State), FaultedWith c s (raiseFault c s)) ∧
  ∀ s t : State, s.runState = .running → step s = .next t → t.runState = .faulted →
    t = { s with runState := .faulted, faultCause := t.faultCause, faultIp := s.ip }

/-- R116: an ended run stays as it is under everything but Reset. -/
def Obligations.EndedRunIsLeftOnlyByReset : Prop :=
  ∀ (s : State) (ops : List HostOp), s.runState = .halted ∨ s.runState = .faulted → HostOp.reset ∉ ops →
    applyOps s ops = s

/-- R52: no step changes a slot, a bound or the configuration, and of the host's operations short of Reset only a Load
in IDLE can. -/
def Obligations.NoInstructionWritesTheProgram : Prop :=
  (∀ s t : State, step s = .next t → SameProgram s t) ∧
  ∀ (s : State) (ops : List HostOp), HostOp.reset ∉ ops →
    (s.runState ≠ .idle ∨ ∀ (a : SlotAddr) (w : InstrWord), HostOp.load a w ∉ ops) → SameProgram s (applyOps s ops)

/-- R17: only CMP writes EQ, only JE reads it, and reset clears it. -/
def Obligations.OnlyCmpWritesAndOnlyJeReadsTheFlag : Prop :=
  (∀ (i : Instr) (s t : State), exec i s = .next t → t.eq ≠ s.eq → ∃ d r, i = .cmp d r) ∧
  (∀ (i : Instr) (s t : State) (b : Bool), (∀ f, i ≠ .je f) → exec i s = .next t →
    ∃ u, exec i { s with eq := b } = .next u ∧ { u with eq := t.eq } = t ∧
      (u.eq = t.eq ∨ (u.eq = b ∧ t.eq = s.eq))) ∧
  ∀ s : State, (hostReset s).eq = false

/-- The control record (R67) says what each completed instruction writes, where it goes on and what it costs. -/
def Obligations.ControlRecordGovernsExecution : Prop :=
  ∀ (i : Instr) (s t : State), s.runState = .running → exec i s = .next t → t.runState ≠ .faulted →
    ((controlRecord i).regWe = true → ∃ d, (controlRecord i).rd = some d ∧ SameRegsBut d s t ∧
      (∀ op b, (controlRecord i).aluOp = some op → (controlRecord i).aluB = some b →
        alu op (getReg s d) (aluBValue s b) = .byte (getReg t d)) ∧
      ((controlRecord i).memRd = true → ∃ m idx, (controlRecord i).rm = some m ∧ formIndex s m = .ok idx ∧
        getReg t d = memRead s idx)) ∧
    ((controlRecord i).regWe = false → SameRegs s t) ∧
    ((controlRecord i).flagWe = true → ∃ d b, (controlRecord i).rd = some d ∧ (controlRecord i).aluB = some b ∧
      (controlRecord i).aluOp = some .eq ∧ alu .eq (getReg s d) (aluBValue s b) = .bit t.eq) ∧
    ((controlRecord i).flagWe = false → t.eq = s.eq) ∧
    ((controlRecord i).memWr = true → ∃ m r idx, (controlRecord i).rm = some m ∧ (controlRecord i).rs = some r ∧
      formIndex s m = .ok idx ∧ memRead t idx = getReg s r ∧ SameCacheBut idx s t) ∧
    ((controlRecord i).memWr = false → SameCache s t) ∧
    ((controlRecord i).memRd = false → (controlRecord i).memWr = false → SameValid s t) ∧
    ((controlRecord i).branch = .none → t.ip = s.ip + 1#9) ∧
    ((controlRecord i).branch = .ifEq → s.eq = false → t.ip = s.ip + 1#9) ∧
    ((controlRecord i).branch = .always ∨ ((controlRecord i).branch = .ifEq ∧ s.eq = true) →
      ∃ n, (controlRecord i).target = some n ∧ t.ip = BitVec.ofInt 9 n) ∧
    t.cycles = countAdd s.config.counterWidth s.cycles ((controlRecord i).baseCost.amount (retiredAs i s).hit)

/-! ### The host's operations -/

/-- R133: Load in IDLE writes its slot and narrows the bounds; otherwise it changes nothing. -/
def Obligations.LoadWritesSlotAndNarrowsBounds : Prop :=
  ∀ (s : State) (a : SlotAddr) (w : InstrWord),
    (s.runState = .idle →
      slotAt (hostLoad a w s) a.val = ⟨true, w⟩ ∧
      (∀ b : Nat, b ≠ a.val → slotAt (hostLoad a w s) b = slotAt s b) ∧
      (hostLoad a w s).entry.toInt = min s.entry.toInt (a.val : Int) ∧
      (hostLoad a w s).exit.toInt = max s.exit.toInt (a.val : Int) ∧
      hostLoad a w s = { s with imem := (hostLoad a w s).imem, entry := (hostLoad a w s).entry,
                                exit := (hostLoad a w s).exit }) ∧
    (s.runState ≠ .idle → hostLoad a w s = s)

/-- R82, R134: Start in IDLE points IP at ENTRY and runs, or halts at once when there is nothing to run; otherwise it
changes nothing. -/
def Obligations.StartBeginsAtEntry : Prop :=
  (∀ s : State, s.Inv → s.runState = .idle →
    ((hostStart s).ip.toNat : Int) = s.entry.toInt ∧
    (s.entry.toInt ≤ s.exit.toInt → (hostStart s).runState = .running) ∧
    (s.exit.toInt < s.entry.toInt → (hostStart s).runState = .halted ∧ (hostStart s).ip.toNat = 256 ∧
      (hostStart s).execCount = 0 ∧ (hostStart s).cycles = 0 ∧ (hostStart s).hits = 0 ∧ (hostStart s).ldst = 0) ∧
    hostStart s = { s with ip := (hostStart s).ip, runState := (hostStart s).runState }) ∧
  ∀ s : State, s.runState ≠ .idle → hostStart s = s

/-- R136: Observe reads the item and changes nothing. -/
def Obligations.ObserveReadsWithoutEffect : Prop :=
  ∀ (s : State) (q : Query) (r : Reg) (idx : CacheIndex) (a : SlotAddr),
    applyOp s (.observe q) = s ∧
    observe (.reg r) s = .byte (getReg s r) ∧ observe .eq s = .bit s.eq ∧ observe .ip s = .ip s.ip ∧
    observe (.cacheCell idx) s = .byte (memRead s idx) ∧ observe (.validBit idx) s = .bit (validAt s idx) ∧
    observe (.slot a) s = .slot (slotAt s a.val) ∧ observe .entry s = .bound s.entry ∧
    observe .exit s = .bound s.exit ∧ observe .runState s = .runState s.runState ∧
    observe .faultCause s = .faultCause s.faultCause ∧ observe .faultIp s = .ip s.faultIp ∧
    observe .execCount s = .counter s.execCount ∧ observe .cycles s = .counter s.cycles ∧
    observe .hits s = .counter s.hits ∧ observe .ldst s = .counter s.ldst

/-- Every output port of R132 shows its item of the state, RUN_STATE and FAULT_CAUSE in the codes of R23 and R113,
`obs_reg` 0 for a select above 5. Requests presented together act in the order Reset, Load, Start, Step of R131, each on
what the one before it left: that all of them act is the model's choice (log 9). So Load with Start in IDLE starts the
program the word is in. -/
def Obligations.PortsShowStateAndApplyRequests : Prop :=
  (runStateCode .idle = 0#2 ∧ runStateCode .running = 1#2 ∧ runStateCode .halted = 2#2 ∧
    runStateCode .faulted = 3#2) ∧
  (faultCode .noFault = 0#3 ∧ faultCode .illegalOpcode = 1#3 ∧ faultCode .illegalRegister = 2#3 ∧
    faultCode .reservedNonzero = 3#3 ∧ faultCode .jumpTargetInvalid = 4#3 ∧ faultCode .fetchUnmapped = 5#3 ∧
    faultCode .indexOutOfRange = 6#3) ∧
  ∀ (p : PortIn) (s : State),
    (portOut p s).runState = runStateCode s.runState ∧ (portOut p s).faultCause = faultCode s.faultCause ∧
    (portOut p s).faultIp = s.faultIp ∧ (portOut p s).ip = s.ip ∧ (portOut p s).eq = s.eq ∧
    (portOut p s).entry = s.entry ∧ (portOut p s).exit = s.exit ∧ (portOut p s).execCount = s.execCount ∧
    (portOut p s).cycleCount = s.cycles ∧ (portOut p s).hitCount = s.hits ∧ (portOut p s).ldstCount = s.ldst ∧
    (5 < p.obsRegSel.toNat → (portOut p s).obsReg = 0x00#8) ∧
    (∀ r : Reg, p.obsRegSel.toNat = r.val → (portOut p s).obsReg = getReg s r) ∧
    (portOut p s).obsMem = memRead s p.obsMemSel.toFin ∧ (portOut p s).obsValid = validAt s p.obsMemSel.toFin ∧
    (portOut p s).obsPresent = (slotAt s p.obsImemSel.toNat).present ∧
    (portOut p s).obsWord = (slotAt s p.obsImemSel.toNat).word ∧
    (let afterReset := if p.rst = true then hostReset s else s
     let afterLoad := if p.loadEn = true then hostLoad p.loadAddr.toFin p.loadWord afterReset else afterReset
     let afterStart := if p.start = true then hostStart afterLoad else afterLoad
     portApply p s = if p.step = true then hostStep afterStart else afterStart) ∧
    (s.runState = .idle → p.rst = false → p.loadEn = true → p.start = true → p.step = false →
      slotAt (portApply p s) p.loadAddr.toNat = ⟨true, p.loadWord⟩ ∧
      (portApply p s).ip = BitVec.ofInt 9 (min s.entry.toInt (p.loadAddr.toNat : Int)) ∧
      (portApply p s).runState = .running)

/-- Booting a program (R139, R133, R82): every word in its slot, every other slot absent, the run started at the least
address, and the rest as reset left it. -/
def Obligations.BootStartsAtLeastLoadedAddress : Prop :=
  ∀ (words : List (SlotAddr × InstrWord)) (s : State), words ≠ [] → (words.map Prod.fst).Nodup →
    (∀ p ∈ words, slotAt (boot words s) p.1.val = ⟨true, p.2⟩) ∧
    (∀ a : Nat, (∀ p ∈ words, p.1.val ≠ a) → slotAt (boot words s) a = ⟨false, 0#24⟩) ∧
    (∃ p ∈ words, (boot words s).ip.toNat = p.1.val ∧ ∀ q ∈ words, p.1.val ≤ q.1.val) ∧
    (boot words s).runState = .running ∧
    boot words s = { State.resetWith s.config with
                     imem := (boot words s).imem, entry := (boot words s).entry, exit := (boot words s).exit,
                     ip := (boot words s).ip, runState := (boot words s).runState }

/-! ### The invariant -/

/-- The invariant holds after reset, under every configuration. -/
def Obligations.ResetMeetsTheInvariant : Prop :=
  State.reset.Inv ∧ ∀ c : Config, (State.resetWith c).Inv

/-- Every step from a state that meets the invariant leads to one that meets it. -/
def Obligations.EveryStepKeepsTheInvariant : Prop :=
  ∀ s t : State, s.Inv → step s = .next t → t.Inv

/-- So does every operation of the host. -/
def Obligations.EveryHostOperationKeepsTheInvariant : Prop :=
  ∀ (s : State) (ops : List HostOp), s.Inv → (applyOps s ops).Inv

/-- R15: IP in every state the host can bring the block into, and that what a step completes is the instruction at
IP. -/
def Obligations.IpStaysInsideTheProgramWhileRunning : Prop :=
  (∀ (s : State) (r : Retired), completedBy s = some r → decode (slotAt s s.ip.toNat).word = .ok r.instr) ∧
  ∀ (c : Config) (ops : List HostOp),
    (applyOps (State.resetWith c) ops).ip.toNat ≤ 256 ∧
    ((applyOps (State.resetWith c) ops).runState = .running →
      (applyOps (State.resetWith c) ops).entry.toInt ≤ ((applyOps (State.resetWith c) ops).ip.toNat : Int) ∧
      ((applyOps (State.resetWith c) ops).ip.toNat : Int) ≤ (applyOps (State.resetWith c) ops).exit.toInt) ∧
    ((applyOps (State.resetWith c) ops).runState = .halted →
      (applyOps (State.resetWith c) ops).exit.toInt < ((applyOps (State.resetWith c) ops).ip.toNat : Int))

/-- R22: ENTRY is the least present slot and EXIT the greatest in every state the host can bring the block into; with no
slot present they are the sentinels. An accepted Load narrows them, and no step changes them. -/
def Obligations.BoundsAreLeastAndGreatestPresentSlots : Prop :=
  (∀ (s : State) (a : SlotAddr) (w : InstrWord), s.runState = .idle →
    (hostLoad a w s).entry.toInt = min s.entry.toInt (a.val : Int) ∧
    (hostLoad a w s).exit.toInt = max s.exit.toInt (a.val : Int)) ∧
  (∀ s t : State, step s = .next t → t.entry = s.entry ∧ t.exit = s.exit) ∧
  ∀ (c : Config) (ops : List HostOp) (s : State), s = applyOps (State.resetWith c) ops →
    ((∃ a : SlotAddr, (slotAt s a.val).present = true) →
      ∃ lo hi : SlotAddr, s.entry.toInt = (lo.val : Int) ∧ s.exit.toInt = (hi.val : Int) ∧
        (slotAt s lo.val).present = true ∧ (slotAt s hi.val).present = true ∧
        ∀ a : SlotAddr, (slotAt s a.val).present = true → lo ≤ a ∧ a ≤ hi) ∧
    ((∀ a : SlotAddr, (slotAt s a.val).present = false) → s.entry.toInt = 256 ∧ s.exit.toInt = -1)

/-- R35: which cells each configuration can reach; the others keep their reset values. -/
def Obligations.ReachOfEachAddressMode : Prop :=
  (∀ (c : Config) (ops : List HostOp) (idx : CacheIndex),
    (c.addrMode = .identifier ∧ 5 < idx.val) ∨
      (c.addrMode = .registerValue ∧ c.indexPolicy = .reject ∧ 127 < idx.val) →
    memRead (applyOps (State.resetWith c) ops) idx = cacheUnlisted c idx.val ∧
    validAt (applyOps (State.resetWith c) ops) idx = false) ∧
  (∀ (s : State) (m : Reg) (idx : CacheIndex), s.config.addrMode = .identifier → formIndex s m = .ok idx →
    idx.val ≤ 5) ∧
  (∀ (s : State) (m : Reg) (idx : CacheIndex), s.config.addrMode = .registerValue → s.config.indexPolicy = .mask →
    formIndex (setReg s m (BitVec.ofNat 8 idx.val)) m = .ok idx) ∧
  (∀ (s : State) (m : Reg) (idx : CacheIndex), s.config.addrMode = .registerValue → s.config.indexPolicy = .reject →
    idx.val ≤ 127 → formIndex (setReg s m (BitVec.ofNat 8 idx.val)) m = .ok idx)

/-- The canonical form of log 2 is one form: data stores in it that read the same at every index are the same list. -/
def Obligations.CanonicalMemoriesThatReadAlikeAreEqual : Prop :=
  ∀ (c : Config) (m n : Memory), Memory.wf c m → Memory.wf c n →
    (∀ idx : CacheIndex, Sparse.read (cacheUnlisted c) m idx.val = Sparse.read (cacheUnlisted c) n idx.val) → m = n

/-! ### The accumulator -/

/-- Over any number of steps from any state the counters move by what the completed instructions add, each modulo its
width (R86, R90, R91). -/
def Obligations.CountersAccumulateWhatCompletes : Prop :=
  ∀ (k : Nat) (s : State), counterHolds s.config.counterWidth s.execCount →
    counterHolds s.config.counterWidth s.cycles → counterHolds s.config.counterWidth s.hits →
    counterHolds s.config.counterWidth s.ldst →
    (runFor k s).execCount = countAdd s.config.counterWidth s.execCount (retiredIn k s).length ∧
    (runFor k s).cycles = countAdd s.config.counterWidth s.cycles ((retiredIn k s).map Retired.cost).sum ∧
    (runFor k s).hits = countAdd s.config.counterWidth s.hits ((retiredIn k s).countP fun r => r.hit) ∧
    (runFor k s).ldst = countAdd s.config.counterWidth s.ldst ((retiredIn k s).countP fun r => isMemInstr r.instr)

/-- R145: the laws of the accumulator, after any number of steps of a run that starts with the counters at 0 and wraps
none of them. -/
def Obligations.AccumulatorLaws : Prop :=
  ∀ (k : Nat) (s : State), s.execCount = 0 → s.cycles = 0 → s.hits = 0 → s.ldst = 0 →
    counterHolds s.config.counterWidth ((retiredIn k s).map Retired.cost).sum →
    ((∀ r ∈ retiredIn k s, isMovAddInstr r.instr = true) →
      (runFor k s).cycles = (runFor k s).execCount ∧ (runFor k s).hits = 0) ∧
    (runFor k s).cycles = ((retiredIn k s).countP fun r => isOneCostInstr r.instr) +
      2 * ((retiredIn k s).countP fun r => isCmpInstr r.instr) + 2 * (runFor k s).hits +
      40 * ((runFor k s).ldst - (runFor k s).hits) ∧
    (runFor k s).hits ≤ (runFor k s).ldst ∧ (runFor k s).ldst ≤ (runFor k s).execCount ∧
    (s.config.addrMode = .identifier → (∀ idx : CacheIndex, validAt s idx = false) →
      (runFor k s).ldst - (runFor k s).hits ≤ 6)

/-! ### The assembler -/

/-- Every instruction written in its documented form at any address assembles back to it (R70, R73, R74, R75). -/
def Obligations.AssemblerReadsBackEveryInstruction : Prop :=
  ∀ (a : SlotAddr) (i : Instr), asmLine (asmLineText a i) = some (a, i)

/-- What the assembler accepts has distinct addresses and only words the decoder accepts, one for each line (R71, R72:
"An assembler never emits such a word"). -/
def Obligations.AssembledProgramsAreLegal : Prop :=
  ∀ (lines : List (List Char)) (words : List (SlotAddr × InstrWord)), assemble lines = some words →
    words.length = lines.length ∧ (words.map Prod.fst).Nodup ∧ ∀ p ∈ words, ∃ i, decode p.2 = .ok i

/-! ### The configuration -/

/-- The configuration is fixed for a whole run (R6). That it is a field of State is the model's choice (log 1), and that
Reset keeps it is the model's reading (log 14). -/
def Obligations.NoOperationChangesTheConfiguration : Prop :=
  (∀ s : State, (hostReset s).config = s.config) ∧
  (∀ (i : Instr) (s t : State), exec i s = .next t → t.config = s.config) ∧
  (∀ s t : State, step s = .next t → t.config = s.config) ∧
  (∀ (s : State) (ops : List HostOp), (applyOps s ops).config = s.config) ∧
  ∀ (p : PortIn) (s : State), (portApply p s).config = s.config
end

