-- ==== Sys2Proof/Laws/Decode.lean ====
section
/-! SUPPORT. Fields of a word, and what the decoder does with them. -/

namespace Sys2Proof

@[simp] theorem op_of_append (a b c : Byte) : (a ++ b ++ c : InstrWord).extractLsb' 16 8 = a := by
  apply BitVec.eq_of_getLsbD_eq
  intro i hi
  simp only [BitVec.getLsbD_extractLsb', BitVec.getLsbD_append, hi, decide_true, Bool.true_and]
  have h1 : ¬ 16 + i < 8 := by omega
  have h2 : ¬ 16 + i - 8 < 8 := by omega
  have h3 : 16 + i - 8 - 8 = i := by omega
  simp [h1, h2, h3]

@[simp] theorem op0_of_append (a b c : Byte) : (a ++ b ++ c : InstrWord).extractLsb' 8 8 = b := by
  apply BitVec.eq_of_getLsbD_eq
  intro i hi
  simp only [BitVec.getLsbD_extractLsb', BitVec.getLsbD_append, hi, decide_true, Bool.true_and]
  have h1 : ¬ 8 + i < 8 := by omega
  have h3 : 8 + i - 8 = i := by omega
  simp [h1, h3, hi]

@[simp] theorem op1_of_append (a b c : Byte) : (a ++ b ++ c : InstrWord).extractLsb' 0 8 = c := by
  apply BitVec.eq_of_getLsbD_eq
  intro i hi
  simp only [BitVec.getLsbD_extractLsb', BitVec.getLsbD_append, hi, decide_true, Bool.true_and]
  simp [hi]

/-- A word is its three fields. -/
theorem append_fields (w : InstrWord) :
    (w.extractLsb' 16 8 ++ w.extractLsb' 8 8 ++ w.extractLsb' 0 8 : InstrWord) = w := by
  apply BitVec.eq_of_getLsbD_eq
  intro i hi
  simp only [BitVec.getLsbD_append, BitVec.getLsbD_extractLsb']
  by_cases h1 : i < 8
  · simp [h1]
  · by_cases h2 : i - 8 < 8
    · have : 8 + (i - 8) = i := by omega
      simp [h1, h2, this]
    · have : 16 + (i - 8 - 8) = i := by omega
      have h3 : i - 8 - 8 < 8 := by omega
      simp [h1, h2, h3, this]

@[simp] theorem fieldsOfWord_append (a b c : Byte) : fieldsOfWord (a ++ b ++ c) = ⟨a, b, c⟩ := by
  simp only [fieldsOfWord, op_of_append, op0_of_append, op1_of_append]

@[simp] theorem fieldsOfWord_wordOfFields (f : Fields) : fieldsOfWord (wordOfFields f) = f :=
  fieldsOfWord_append f.op f.op0 f.op1

@[simp] theorem wordOfFields_fieldsOfWord (w : InstrWord) : wordOfFields (fieldsOfWord w) = w := append_fields w

theorem decode_append (a b c : Byte) : decode (a ++ b ++ c) = decodeFields ⟨a, b, c⟩ := by
  simp only [decode, fieldsOfWord_append]

@[simp] theorem encodeReg_toNat (r : Reg) : (encodeReg r).toNat = r.val := by
  have := r.isLt
  simp only [encodeReg, BitVec.toNat_ofNat]; omega

@[simp] theorem decodeReg_encodeReg (r : Reg) : decodeReg (encodeReg r) = .ok r := by
  have := r.isLt
  simp [decodeReg]

theorem decodeReg_ok {f : Byte} {r : Reg} : decodeReg f = .ok r ↔ f = encodeReg r := by
  constructor
  · intro h
    unfold decodeReg at h
    split at h
    · cases h
      apply BitVec.eq_of_toNat_eq
      simp
    · cases h
  · rintro rfl; simp

theorem decodeReg_error {f : Byte} (h : 5 < f.toNat) : decodeReg f = .error .illegalRegister := by
  have : ¬ f.toNat < 6 := by omega
  simp [decodeReg, this]

theorem decodeReg_legal {f : Byte} (h : f.toNat ≤ 5) : ∃ r : Reg, decodeReg f = .ok r ∧ r.val = f.toNat := by
  have : f.toNat < 6 := by omega
  exact ⟨⟨f.toNat, this⟩, by simp [decodeReg, this], rfl⟩

theorem decodeReserved_zero : decodeReserved 0x00#8 = .ok () := rfl

theorem decodeReserved_error {f : Byte} (h : f ≠ 0x00#8) : decodeReserved f = .error .reservedNonzero := by
  simp only [decodeReserved, h, if_false]

/-- The fields of an encoded instruction. -/
@[simp] theorem fieldsOfWord_encode (i : Instr) : fieldsOfWord (encode i) = encodeFields i :=
  fieldsOfWord_wordOfFields _

/-- A word of two register fields with either of them illegal (R62). -/
theorem decode_bad_register_pair {f g : Byte} (h : 5 < f.toNat ∨ 5 < g.toNat) (k : Byte)
    (hk : k.toNat ∈ [1,3,4,5]) :
    decode (k ++ f ++ g) = .error .illegalRegister := by
  rw [decode_append]
  simp only [List.mem_cons, List.not_mem_nil, or_false] at hk
  by_cases hf : 5 < f.toNat
  · rcases hk with hk | hk | hk | hk <;> simp only [decodeFields, hk, decodeReg_error hf] <;> rfl
  · have hg : 5 < g.toNat := by tauto
    obtain ⟨r, hr, -⟩ := decodeReg_legal (by omega : f.toNat ≤ 5)
    rcases hk with hk | hk | hk | hk <;> simp only [decodeFields, hk, hr, decodeReg_error hg] <;> rfl

end Sys2Proof
end

