-- ==== Sys2Proof/Laws/Sparse.lean ====
section
/-! SUPPORT. The sparse arrays: a read after a write, and that a write keeps the canonical form. -/

namespace Sys2Proof.Machine

variable {α : Type} {unlisted : Nat → α}

@[simp] theorem Sparse.read_nil (a : Nat) : Sparse.read unlisted [] a = unlisted a := rfl

@[simp] theorem Sparse.read_cons (k : Nat) (v : α) (l : List (Nat × α)) (a : Nat) :
    Sparse.read unlisted ((k, v) :: l) a = if k = a then v else Sparse.read unlisted l a := rfl

/-- With its entries dropped, an index reads as an unlisted one. -/
theorem Sparse.read_drop_same (l : List (Nat × α)) (a : Nat) :
    Sparse.read unlisted (Sparse.drop l a) a = unlisted a := by
  induction l with
  | nil => rfl
  | cons e l ih =>
    obtain ⟨k, v⟩ := e
    by_cases hk : k = a
    · simpa [Sparse.drop, hk] using ih
    · simpa [Sparse.drop, hk] using ih

/-- Dropping one index leaves every other. -/
theorem Sparse.read_drop_other (l : List (Nat × α)) (a b : Nat) (h : b ≠ a) :
    Sparse.read unlisted (Sparse.drop l a) b = Sparse.read unlisted l b := by
  induction l with
  | nil => rfl
  | cons e l ih =>
    obtain ⟨k, v⟩ := e
    by_cases hk : k = a
    · subst hk
      have : ¬ k = b := fun e => h e.symm
      simpa [Sparse.drop, this] using ih
    · by_cases hb : k = b
      · simp [Sparse.drop, hb, h]
      · simpa [Sparse.drop, hk, hb] using ih

/-- An entry put for an index that had none is what the index then reads as; every other index is left. -/
theorem Sparse.read_put (l : List (Nat × α)) (a b : Nat) (v : α) (h : ∀ e ∈ l, e.1 ≠ a) :
    Sparse.read unlisted (Sparse.put l a v) b = if a = b then v else Sparse.read unlisted l b := by
  induction l with
  | nil => rfl
  | cons e l ih =>
    obtain ⟨k, w⟩ := e
    have hk : k ≠ a := h (k, w) (by simp)
    have ih' := ih fun e he => h e (by simp [he])
    by_cases hlt : a < k
    · simp [Sparse.put, hlt]
    · by_cases hb : k = b
      · subst hb
        simp [Sparse.put, hlt, hk.symm]
      · simp [Sparse.put, hlt, hb, ih']

theorem Sparse.mem_drop {l : List (Nat × α)} {a : Nat} {e : Nat × α} :
    e ∈ Sparse.drop l a ↔ e ∈ l ∧ e.1 ≠ a := by
  simp [Sparse.drop]

variable [DecidableEq α]

/-- A read after a write, on any list. -/
theorem Sparse.read_write (l : List (Nat × α)) (a b : Nat) (v : α) :
    Sparse.read unlisted (Sparse.write unlisted l a v) b = if a = b then v else Sparse.read unlisted l b := by
  unfold Sparse.write
  by_cases hv : v = unlisted a
  · rw [if_pos hv]
    by_cases hb : a = b
    · subst hb; rw [if_pos rfl, Sparse.read_drop_same, hv]
    · rw [if_neg hb, Sparse.read_drop_other l a b fun e => hb e.symm]
  · rw [if_neg hv, Sparse.read_put _ _ _ _ fun e he => (Sparse.mem_drop.mp he).2]
    by_cases hb : a = b
    · simp [hb]
    · rw [if_neg hb, if_neg hb, Sparse.read_drop_other l a b fun e => hb e.symm]

omit [DecidableEq α] in
theorem Sparse.mem_put {l : List (Nat × α)} {a : Nat} {v : α} {e : Nat × α} :
    e ∈ Sparse.put l a v ↔ e = (a, v) ∨ e ∈ l := by
  induction l with
  | nil => simp [Sparse.put]
  | cons f l ih =>
    by_cases hlt : a < f.1
    · simp [Sparse.put, hlt]
    · simp [Sparse.put, hlt, ih]; tauto

omit [DecidableEq α] in
theorem Sparse.put_rising {l : List (Nat × α)} {a : Nat} {v : α}
    (h : l.Pairwise fun e f => e.1 < f.1) (ha : ∀ e ∈ l, e.1 ≠ a) :
    (Sparse.put l a v).Pairwise fun e f => e.1 < f.1 := by
  induction l with
  | nil => simp [Sparse.put]
  | cons f l ih =>
    obtain ⟨hf, hl⟩ := List.pairwise_cons.mp h
    by_cases hlt : a < f.1
    · simp only [Sparse.put, hlt, if_true]
      refine List.pairwise_cons.mpr ⟨?_, h⟩
      intro e he
      rcases List.mem_cons.mp he with rfl | he
      · exact hlt
      · exact lt_trans hlt (hf e he)
    · simp only [Sparse.put, hlt, if_false]
      refine List.pairwise_cons.mpr ⟨?_, ih hl fun e he => ha e (by simp [he])⟩
      intro e he
      have := ha f (by simp)
      rcases Sparse.mem_put.mp he with rfl | he
      · show f.1 < a; omega
      · exact hf e he

/-- A write inside the array keeps the canonical form. -/
theorem Sparse.write_wf {l : List (Nat × α)} {a : Nat} {v : α} (ha : a < 256) (h : Sparse.wf unlisted l) :
    Sparse.wf unlisted (Sparse.write unlisted l a v) := by
  have hd : (Sparse.drop l a).Pairwise fun e f => e.1 < f.1 := List.Pairwise.filter _ h.1
  unfold Sparse.write
  by_cases hv : v = unlisted a
  · rw [if_pos hv]
    exact ⟨hd, fun e he => h.2 e (Sparse.mem_drop.mp he).1⟩
  · rw [if_neg hv]
    refine ⟨Sparse.put_rising hd fun e he => (Sparse.mem_drop.mp he).2, fun e he => ?_⟩
    rcases Sparse.mem_put.mp he with rfl | he
    · exact ⟨ha, hv⟩
    · exact h.2 e (Sparse.mem_drop.mp he).1

omit [DecidableEq α] in
theorem Sparse.nil_wf : Sparse.wf unlisted ([] : List (Nat × α)) := by simp [Sparse.wf]

omit [DecidableEq α] in
/-- In canonical form an index of 256 or above is not listed. -/
theorem Sparse.read_beyond {l : List (Nat × α)} (h : Sparse.wf unlisted l) {a : Nat} (ha : 256 ≤ a) :
    Sparse.read unlisted l a = unlisted a := by
  have key : ∀ m : List (Nat × α), (∀ e ∈ m, e.1 < 256) → Sparse.read unlisted m a = unlisted a := by
    intro m
    induction m with
    | nil => intro _; rfl
    | cons e m ih =>
      obtain ⟨k, v⟩ := e
      intro hm
      have hk : k < 256 := hm (k, v) (by simp)
      have : ¬ k = a := by omega
      simpa [this] using ih fun e he => hm e (by simp [he])
  exact key l fun e he => (h.2 e he).1

omit [DecidableEq α] in
theorem Sparse.read_mem {l : List (Nat × α)} (h : Sparse.wf unlisted l) {e : Nat × α} (he : e ∈ l) :
    Sparse.read unlisted l e.1 = e.2 := by
  obtain ⟨hp, -⟩ := h
  induction l with
  | nil => cases he
  | cons f l ih =>
    obtain ⟨k, v⟩ := f
    obtain ⟨hf, hl⟩ := List.pairwise_cons.mp hp
    rcases List.mem_cons.mp he with rfl | he'
    · simp
    · have : ¬ k = e.1 := Nat.ne_of_lt (hf e he')
      simpa [this] using ih he' hl

end Sys2Proof.Machine
end

