-- ==== Sys2Proof/Laws/State.lean ====
section
/-! SUPPORT. What each update of the state leaves in each field: one lemma per field per update, each true by `rfl`. -/

namespace Sys2Proof.Machine

/-! ### setReg -/

@[simp] theorem setReg_config (s : State) (r : Reg) (v : Byte) : (setReg s r v).config = s.config := rfl
@[simp] theorem setReg_x (s : State) (r : Reg) (v : Byte) : (setReg s r v).x = s.x.set r v := rfl
@[simp] theorem setReg_eq (s : State) (r : Reg) (v : Byte) : (setReg s r v).eq = s.eq := rfl
@[simp] theorem setReg_ip (s : State) (r : Reg) (v : Byte) : (setReg s r v).ip = s.ip := rfl
@[simp] theorem setReg_cache (s : State) (r : Reg) (v : Byte) : (setReg s r v).cache = s.cache := rfl
@[simp] theorem setReg_valid (s : State) (r : Reg) (v : Byte) : (setReg s r v).valid = s.valid := rfl
@[simp] theorem setReg_imem (s : State) (r : Reg) (v : Byte) : (setReg s r v).imem = s.imem := rfl
@[simp] theorem setReg_entry (s : State) (r : Reg) (v : Byte) : (setReg s r v).entry = s.entry := rfl
@[simp] theorem setReg_exit (s : State) (r : Reg) (v : Byte) : (setReg s r v).exit = s.exit := rfl
@[simp] theorem setReg_runState (s : State) (r : Reg) (v : Byte) : (setReg s r v).runState = s.runState := rfl
@[simp] theorem setReg_faultCause (s : State) (r : Reg) (v : Byte) : (setReg s r v).faultCause = s.faultCause := rfl
@[simp] theorem setReg_faultIp (s : State) (r : Reg) (v : Byte) : (setReg s r v).faultIp = s.faultIp := rfl
@[simp] theorem setReg_execCount (s : State) (r : Reg) (v : Byte) : (setReg s r v).execCount = s.execCount := rfl
@[simp] theorem setReg_cycles (s : State) (r : Reg) (v : Byte) : (setReg s r v).cycles = s.cycles := rfl
@[simp] theorem setReg_hits (s : State) (r : Reg) (v : Byte) : (setReg s r v).hits = s.hits := rfl
@[simp] theorem setReg_ldst (s : State) (r : Reg) (v : Byte) : (setReg s r v).ldst = s.ldst := rfl

/-! ### setEq -/

@[simp] theorem setEq_config (s : State) (b : Bool) : (setEq s b).config = s.config := rfl
@[simp] theorem setEq_x (s : State) (b : Bool) : (setEq s b).x = s.x := rfl
@[simp] theorem setEq_eq (s : State) (b : Bool) : (setEq s b).eq = b := rfl
@[simp] theorem setEq_ip (s : State) (b : Bool) : (setEq s b).ip = s.ip := rfl
@[simp] theorem setEq_cache (s : State) (b : Bool) : (setEq s b).cache = s.cache := rfl
@[simp] theorem setEq_valid (s : State) (b : Bool) : (setEq s b).valid = s.valid := rfl
@[simp] theorem setEq_imem (s : State) (b : Bool) : (setEq s b).imem = s.imem := rfl
@[simp] theorem setEq_entry (s : State) (b : Bool) : (setEq s b).entry = s.entry := rfl
@[simp] theorem setEq_exit (s : State) (b : Bool) : (setEq s b).exit = s.exit := rfl
@[simp] theorem setEq_runState (s : State) (b : Bool) : (setEq s b).runState = s.runState := rfl
@[simp] theorem setEq_faultCause (s : State) (b : Bool) : (setEq s b).faultCause = s.faultCause := rfl
@[simp] theorem setEq_faultIp (s : State) (b : Bool) : (setEq s b).faultIp = s.faultIp := rfl
@[simp] theorem setEq_execCount (s : State) (b : Bool) : (setEq s b).execCount = s.execCount := rfl
@[simp] theorem setEq_cycles (s : State) (b : Bool) : (setEq s b).cycles = s.cycles := rfl
@[simp] theorem setEq_hits (s : State) (b : Bool) : (setEq s b).hits = s.hits := rfl
@[simp] theorem setEq_ldst (s : State) (b : Bool) : (setEq s b).ldst = s.ldst := rfl

/-! ### memWrite -/

@[simp] theorem memWrite_config (s : State) (idx : CacheIndex) (v : Byte) :
    (memWrite s idx v).config = s.config := rfl
@[simp] theorem memWrite_x (s : State) (idx : CacheIndex) (v : Byte) : (memWrite s idx v).x = s.x := rfl
@[simp] theorem memWrite_eq (s : State) (idx : CacheIndex) (v : Byte) : (memWrite s idx v).eq = s.eq := rfl
@[simp] theorem memWrite_ip (s : State) (idx : CacheIndex) (v : Byte) : (memWrite s idx v).ip = s.ip := rfl
@[simp] theorem memWrite_cache (s : State) (idx : CacheIndex) (v : Byte) :
    (memWrite s idx v).cache = Sparse.write (cacheUnlisted s.config) s.cache idx.val v := rfl
@[simp] theorem memWrite_valid (s : State) (idx : CacheIndex) (v : Byte) : (memWrite s idx v).valid = s.valid := rfl
@[simp] theorem memWrite_imem (s : State) (idx : CacheIndex) (v : Byte) : (memWrite s idx v).imem = s.imem := rfl
@[simp] theorem memWrite_entry (s : State) (idx : CacheIndex) (v : Byte) : (memWrite s idx v).entry = s.entry := rfl
@[simp] theorem memWrite_exit (s : State) (idx : CacheIndex) (v : Byte) : (memWrite s idx v).exit = s.exit := rfl
@[simp] theorem memWrite_runState (s : State) (idx : CacheIndex) (v : Byte) :
    (memWrite s idx v).runState = s.runState := rfl
@[simp] theorem memWrite_faultCause (s : State) (idx : CacheIndex) (v : Byte) :
    (memWrite s idx v).faultCause = s.faultCause := rfl
@[simp] theorem memWrite_faultIp (s : State) (idx : CacheIndex) (v : Byte) :
    (memWrite s idx v).faultIp = s.faultIp := rfl
@[simp] theorem memWrite_execCount (s : State) (idx : CacheIndex) (v : Byte) :
    (memWrite s idx v).execCount = s.execCount := rfl
@[simp] theorem memWrite_cycles (s : State) (idx : CacheIndex) (v : Byte) :
    (memWrite s idx v).cycles = s.cycles := rfl
@[simp] theorem memWrite_hits (s : State) (idx : CacheIndex) (v : Byte) : (memWrite s idx v).hits = s.hits := rfl
@[simp] theorem memWrite_ldst (s : State) (idx : CacheIndex) (v : Byte) : (memWrite s idx v).ldst = s.ldst := rfl

/-! ### touch -/

@[simp] theorem touch_config (s : State) (idx : CacheIndex) : (touch s idx).config = s.config := rfl
@[simp] theorem touch_x (s : State) (idx : CacheIndex) : (touch s idx).x = s.x := rfl
@[simp] theorem touch_eq (s : State) (idx : CacheIndex) : (touch s idx).eq = s.eq := rfl
@[simp] theorem touch_ip (s : State) (idx : CacheIndex) : (touch s idx).ip = s.ip := rfl
@[simp] theorem touch_cache (s : State) (idx : CacheIndex) : (touch s idx).cache = s.cache := rfl
@[simp] theorem touch_valid (s : State) (idx : CacheIndex) :
    (touch s idx).valid = Sparse.write validUnlisted s.valid idx.val true := rfl
@[simp] theorem touch_imem (s : State) (idx : CacheIndex) : (touch s idx).imem = s.imem := rfl
@[simp] theorem touch_entry (s : State) (idx : CacheIndex) : (touch s idx).entry = s.entry := rfl
@[simp] theorem touch_exit (s : State) (idx : CacheIndex) : (touch s idx).exit = s.exit := rfl
@[simp] theorem touch_runState (s : State) (idx : CacheIndex) : (touch s idx).runState = s.runState := rfl
@[simp] theorem touch_faultCause (s : State) (idx : CacheIndex) : (touch s idx).faultCause = s.faultCause := rfl
@[simp] theorem touch_faultIp (s : State) (idx : CacheIndex) : (touch s idx).faultIp = s.faultIp := rfl
@[simp] theorem touch_execCount (s : State) (idx : CacheIndex) : (touch s idx).execCount = s.execCount := rfl
@[simp] theorem touch_cycles (s : State) (idx : CacheIndex) : (touch s idx).cycles = s.cycles := rfl
@[simp] theorem touch_hits (s : State) (idx : CacheIndex) : (touch s idx).hits = s.hits := rfl
@[simp] theorem touch_ldst (s : State) (idx : CacheIndex) : (touch s idx).ldst = s.ldst := rfl

/-! ### storeWord -/

@[simp] theorem storeWord_config (s : State) (a : SlotAddr) (w : InstrWord) :
    (storeWord s a w).config = s.config := rfl
@[simp] theorem storeWord_x (s : State) (a : SlotAddr) (w : InstrWord) : (storeWord s a w).x = s.x := rfl
@[simp] theorem storeWord_eq (s : State) (a : SlotAddr) (w : InstrWord) : (storeWord s a w).eq = s.eq := rfl
@[simp] theorem storeWord_ip (s : State) (a : SlotAddr) (w : InstrWord) : (storeWord s a w).ip = s.ip := rfl
@[simp] theorem storeWord_cache (s : State) (a : SlotAddr) (w : InstrWord) : (storeWord s a w).cache = s.cache := rfl
@[simp] theorem storeWord_valid (s : State) (a : SlotAddr) (w : InstrWord) : (storeWord s a w).valid = s.valid := rfl
@[simp] theorem storeWord_imem (s : State) (a : SlotAddr) (w : InstrWord) :
    (storeWord s a w).imem = Sparse.write slotUnlisted s.imem a.val ⟨true, w⟩ := rfl
@[simp] theorem storeWord_entry (s : State) (a : SlotAddr) (w : InstrWord) :
    (storeWord s a w).entry = if (a.val : Int) < s.entry.toInt then BitVec.ofInt 10 a.val else s.entry := rfl
@[simp] theorem storeWord_exit (s : State) (a : SlotAddr) (w : InstrWord) :
    (storeWord s a w).exit = if s.exit.toInt < (a.val : Int) then BitVec.ofInt 10 a.val else s.exit := rfl
@[simp] theorem storeWord_runState (s : State) (a : SlotAddr) (w : InstrWord) :
    (storeWord s a w).runState = s.runState := rfl
@[simp] theorem storeWord_faultCause (s : State) (a : SlotAddr) (w : InstrWord) :
    (storeWord s a w).faultCause = s.faultCause := rfl
@[simp] theorem storeWord_faultIp (s : State) (a : SlotAddr) (w : InstrWord) :
    (storeWord s a w).faultIp = s.faultIp := rfl
@[simp] theorem storeWord_execCount (s : State) (a : SlotAddr) (w : InstrWord) :
    (storeWord s a w).execCount = s.execCount := rfl
@[simp] theorem storeWord_cycles (s : State) (a : SlotAddr) (w : InstrWord) :
    (storeWord s a w).cycles = s.cycles := rfl
@[simp] theorem storeWord_hits (s : State) (a : SlotAddr) (w : InstrWord) : (storeWord s a w).hits = s.hits := rfl
@[simp] theorem storeWord_ldst (s : State) (a : SlotAddr) (w : InstrWord) : (storeWord s a w).ldst = s.ldst := rfl

/-! ### raiseFault -/

@[simp] theorem raiseFault_config (c : FaultCause) (s : State) : (raiseFault c s).config = s.config := rfl
@[simp] theorem raiseFault_x (c : FaultCause) (s : State) : (raiseFault c s).x = s.x := rfl
@[simp] theorem raiseFault_eq (c : FaultCause) (s : State) : (raiseFault c s).eq = s.eq := rfl
@[simp] theorem raiseFault_ip (c : FaultCause) (s : State) : (raiseFault c s).ip = s.ip := rfl
@[simp] theorem raiseFault_cache (c : FaultCause) (s : State) : (raiseFault c s).cache = s.cache := rfl
@[simp] theorem raiseFault_valid (c : FaultCause) (s : State) : (raiseFault c s).valid = s.valid := rfl
@[simp] theorem raiseFault_imem (c : FaultCause) (s : State) : (raiseFault c s).imem = s.imem := rfl
@[simp] theorem raiseFault_entry (c : FaultCause) (s : State) : (raiseFault c s).entry = s.entry := rfl
@[simp] theorem raiseFault_exit (c : FaultCause) (s : State) : (raiseFault c s).exit = s.exit := rfl
@[simp] theorem raiseFault_runState (c : FaultCause) (s : State) : (raiseFault c s).runState = .faulted := rfl
@[simp] theorem raiseFault_faultCause (c : FaultCause) (s : State) : (raiseFault c s).faultCause = c := rfl
@[simp] theorem raiseFault_faultIp (c : FaultCause) (s : State) : (raiseFault c s).faultIp = s.ip := rfl
@[simp] theorem raiseFault_execCount (c : FaultCause) (s : State) : (raiseFault c s).execCount = s.execCount := rfl
@[simp] theorem raiseFault_cycles (c : FaultCause) (s : State) : (raiseFault c s).cycles = s.cycles := rfl
@[simp] theorem raiseFault_hits (c : FaultCause) (s : State) : (raiseFault c s).hits = s.hits := rfl
@[simp] theorem raiseFault_ldst (c : FaultCause) (s : State) : (raiseFault c s).ldst = s.ldst := rfl

/-! ### commit -/

@[simp] theorem commit_config (s : State) (p : Ip) (n : Nat) (h m : Bool) :
    (commit s p n h m).config = s.config := rfl
@[simp] theorem commit_x (s : State) (p : Ip) (n : Nat) (h m : Bool) : (commit s p n h m).x = s.x := rfl
@[simp] theorem commit_eq (s : State) (p : Ip) (n : Nat) (h m : Bool) : (commit s p n h m).eq = s.eq := rfl
@[simp] theorem commit_ip (s : State) (p : Ip) (n : Nat) (h m : Bool) : (commit s p n h m).ip = p := rfl
@[simp] theorem commit_cache (s : State) (p : Ip) (n : Nat) (h m : Bool) : (commit s p n h m).cache = s.cache := rfl
@[simp] theorem commit_valid (s : State) (p : Ip) (n : Nat) (h m : Bool) : (commit s p n h m).valid = s.valid := rfl
@[simp] theorem commit_imem (s : State) (p : Ip) (n : Nat) (h m : Bool) : (commit s p n h m).imem = s.imem := rfl
@[simp] theorem commit_entry (s : State) (p : Ip) (n : Nat) (h m : Bool) : (commit s p n h m).entry = s.entry := rfl
@[simp] theorem commit_exit (s : State) (p : Ip) (n : Nat) (h m : Bool) : (commit s p n h m).exit = s.exit := rfl
@[simp] theorem commit_runState (s : State) (p : Ip) (n : Nat) (h m : Bool) :
    (commit s p n h m).runState = if s.exit.toInt < (p.toNat : Int) then .halted else s.runState := rfl
@[simp] theorem commit_faultCause (s : State) (p : Ip) (n : Nat) (h m : Bool) :
    (commit s p n h m).faultCause = s.faultCause := rfl
@[simp] theorem commit_faultIp (s : State) (p : Ip) (n : Nat) (h m : Bool) :
    (commit s p n h m).faultIp = s.faultIp := rfl
@[simp] theorem commit_execCount (s : State) (p : Ip) (n : Nat) (h m : Bool) :
    (commit s p n h m).execCount = countAdd s.config.counterWidth s.execCount 1 := rfl
@[simp] theorem commit_cycles (s : State) (p : Ip) (n : Nat) (h m : Bool) :
    (commit s p n h m).cycles = countAdd s.config.counterWidth s.cycles n := rfl
@[simp] theorem commit_hits (s : State) (p : Ip) (n : Nat) (h m : Bool) :
    (commit s p n h m).hits = countAdd s.config.counterWidth s.hits (if h then 1 else 0) := rfl
@[simp] theorem commit_ldst (s : State) (p : Ip) (n : Nat) (h m : Bool) :
    (commit s p n h m).ldst = countAdd s.config.counterWidth s.ldst (if m then 1 else 0) := rfl

/-! ### resetWith -/

@[simp] theorem resetWith_config (c : Config) : (State.resetWith c).config = c := rfl
@[simp] theorem resetWith_x (c : Config) : (State.resetWith c).x = Vector.replicate 6 0 := rfl
@[simp] theorem resetWith_eq (c : Config) : (State.resetWith c).eq = false := rfl
@[simp] theorem resetWith_ip (c : Config) : (State.resetWith c).ip = 0 := rfl
@[simp] theorem resetWith_cache (c : Config) : (State.resetWith c).cache = [] := rfl
@[simp] theorem resetWith_valid (c : Config) : (State.resetWith c).valid = [] := rfl
@[simp] theorem resetWith_imem (c : Config) : (State.resetWith c).imem = [] := rfl
@[simp] theorem resetWith_entry (c : Config) : (State.resetWith c).entry = BitVec.ofInt 10 256 := rfl
@[simp] theorem resetWith_exit (c : Config) : (State.resetWith c).exit = BitVec.ofInt 10 (-1) := rfl
@[simp] theorem resetWith_runState (c : Config) : (State.resetWith c).runState = .idle := rfl
@[simp] theorem resetWith_faultCause (c : Config) : (State.resetWith c).faultCause = .noFault := rfl
@[simp] theorem resetWith_faultIp (c : Config) : (State.resetWith c).faultIp = 0 := rfl
@[simp] theorem resetWith_execCount (c : Config) : (State.resetWith c).execCount = 0 := rfl
@[simp] theorem resetWith_cycles (c : Config) : (State.resetWith c).cycles = 0 := rfl
@[simp] theorem resetWith_hits (c : Config) : (State.resetWith c).hits = 0 := rfl
@[simp] theorem resetWith_ldst (c : Config) : (State.resetWith c).ldst = 0 := rfl

end Sys2Proof.Machine
end

