-- ==== Sys2Proof/Laws/Ops.lean ====
section
/-! SUPPORT. What the shared operations do, once each: reads after updates, the canonical form kept, and the operands. -/

namespace Sys2Proof.Machine

/-! ### Registers -/

theorem getReg_setReg (s : State) (r q : Reg) (v : Byte) :
    getReg (setReg s r v) q = if r = q then v else getReg s q := by
  simp only [getReg, setReg_x]
  by_cases h : r = q
  · subst h; simp
  · have : r.val ≠ q.val := fun e => h (Fin.ext e)
    simp [h, this]

@[simp] theorem getReg_setReg_same (s : State) (r : Reg) (v : Byte) : getReg (setReg s r v) r = v := by
  simp [getReg_setReg]

theorem getReg_setReg_other (s : State) {r q : Reg} (v : Byte) (h : q ≠ r) : getReg (setReg s r v) q = getReg s q := by
  simp [getReg_setReg, h.symm]

@[simp] theorem getReg_setEq (s : State) (b : Bool) (r : Reg) : getReg (setEq s b) r = getReg s r := rfl
@[simp] theorem getReg_memWrite (s : State) (i : CacheIndex) (v : Byte) (r : Reg) :
    getReg (memWrite s i v) r = getReg s r := rfl
@[simp] theorem getReg_touch (s : State) (i : CacheIndex) (r : Reg) : getReg (touch s i) r = getReg s r := rfl
@[simp] theorem getReg_storeWord (s : State) (a : SlotAddr) (w : InstrWord) (r : Reg) :
    getReg (storeWord s a w) r = getReg s r := rfl
@[simp] theorem getReg_raiseFault (c : FaultCause) (s : State) (r : Reg) :
    getReg (raiseFault c s) r = getReg s r := rfl
@[simp] theorem getReg_commit (s : State) (p : Ip) (n : Nat) (h m : Bool) (r : Reg) :
    getReg (commit s p n h m) r = getReg s r := rfl

/-! ### The data store -/

/-- A read after a write of the data store. -/
theorem memRead_memWrite (s : State) (i j : CacheIndex) (v : Byte) :
    memRead (memWrite s i v) j = if i = j then v else memRead s j := by
  simp only [memRead, memWrite_config, memWrite_cache, Sparse.read_write, Fin.ext_iff]

@[simp] theorem memRead_setReg (s : State) (r : Reg) (v : Byte) (i : CacheIndex) :
    memRead (setReg s r v) i = memRead s i := rfl
@[simp] theorem memRead_setEq (s : State) (b : Bool) (i : CacheIndex) : memRead (setEq s b) i = memRead s i := rfl
@[simp] theorem memRead_touch (s : State) (j i : CacheIndex) : memRead (touch s j) i = memRead s i := rfl
@[simp] theorem memRead_storeWord (s : State) (a : SlotAddr) (w : InstrWord) (i : CacheIndex) :
    memRead (storeWord s a w) i = memRead s i := rfl
@[simp] theorem memRead_raiseFault (c : FaultCause) (s : State) (i : CacheIndex) :
    memRead (raiseFault c s) i = memRead s i := rfl
@[simp] theorem memRead_commit (s : State) (p : Ip) (n : Nat) (h m : Bool) (i : CacheIndex) :
    memRead (commit s p n h m) i = memRead s i := rfl

/-- A write of the data store keeps its canonical form. -/
theorem memWrite_wf (s : State) (i : CacheIndex) (v : Byte) (h : Memory.wf s.config s.cache) :
    Memory.wf (memWrite s i v).config (memWrite s i v).cache := Sparse.write_wf i.isLt h

/-! ### The validity bitmap -/

/-- A validity bit after an index is touched. -/
theorem validAt_touch (s : State) (i j : CacheIndex) : validAt (touch s i) j = (decide (i = j) || validAt s j) := by
  simp only [validAt, touch_valid, Sparse.read_write, Fin.ext_iff]
  by_cases h : i.val = j.val <;> simp [h]

@[simp] theorem validAt_setReg (s : State) (r : Reg) (v : Byte) (i : CacheIndex) :
    validAt (setReg s r v) i = validAt s i := rfl
@[simp] theorem validAt_setEq (s : State) (b : Bool) (i : CacheIndex) : validAt (setEq s b) i = validAt s i := rfl
@[simp] theorem validAt_memWrite (s : State) (j : CacheIndex) (v : Byte) (i : CacheIndex) :
    validAt (memWrite s j v) i = validAt s i := rfl
@[simp] theorem validAt_storeWord (s : State) (a : SlotAddr) (w : InstrWord) (i : CacheIndex) :
    validAt (storeWord s a w) i = validAt s i := rfl
@[simp] theorem validAt_raiseFault (c : FaultCause) (s : State) (i : CacheIndex) :
    validAt (raiseFault c s) i = validAt s i := rfl
@[simp] theorem validAt_commit (s : State) (p : Ip) (n : Nat) (h m : Bool) (i : CacheIndex) :
    validAt (commit s p n h m) i = validAt s i := rfl

/-- Touching an index keeps the bitmap's canonical form. -/
theorem touch_wf (s : State) (i : CacheIndex) (h : Sparse.wf validUnlisted s.valid) :
    Sparse.wf validUnlisted (touch s i).valid := by
  rw [touch_valid]; exact Sparse.write_wf i.isLt h

/-! ### The instruction store -/

/-- A slot after a word is stored. -/
theorem slotAt_storeWord (s : State) (a : SlotAddr) (w : InstrWord) (b : Nat) :
    slotAt (storeWord s a w) b = if a.val = b then ⟨true, w⟩ else slotAt s b := by
  simp only [slotAt, storeWord_imem, Sparse.read_write]

@[simp] theorem slotAt_setReg (s : State) (r : Reg) (v : Byte) (a : Nat) :
    slotAt (setReg s r v) a = slotAt s a := rfl
@[simp] theorem slotAt_setEq (s : State) (b : Bool) (a : Nat) : slotAt (setEq s b) a = slotAt s a := rfl
@[simp] theorem slotAt_memWrite (s : State) (j : CacheIndex) (v : Byte) (a : Nat) :
    slotAt (memWrite s j v) a = slotAt s a := rfl
@[simp] theorem slotAt_touch (s : State) (j : CacheIndex) (a : Nat) : slotAt (touch s j) a = slotAt s a := rfl
@[simp] theorem slotAt_raiseFault (c : FaultCause) (s : State) (a : Nat) :
    slotAt (raiseFault c s) a = slotAt s a := rfl
@[simp] theorem slotAt_commit (s : State) (p : Ip) (n : Nat) (h m : Bool) (a : Nat) :
    slotAt (commit s p n h m) a = slotAt s a := rfl

/-- Storing a word keeps the instruction store's canonical form. -/
theorem storeWord_wf (s : State) (a : SlotAddr) (w : InstrWord) (h : Sparse.wf slotUnlisted s.imem) :
    Sparse.wf slotUnlisted (storeWord s a w).imem := by
  rw [storeWord_imem]; exact Sparse.write_wf a.isLt h

/-- A slot address as a 10-bit bound keeps its value. -/
theorem bound_toInt (a : SlotAddr) : (BitVec.ofInt 10 (a.val : Int)).toInt = a.val := by
  have := a.isLt
  rw [BitVec.toInt_ofInt]; exact Int.bmod_eq_of_le (by omega) (by omega)

/-- Storing a word lowers ENTRY to its address. -/
theorem storeWord_entry_toInt (s : State) (a : SlotAddr) (w : InstrWord) :
    (storeWord s a w).entry.toInt = min s.entry.toInt (a.val : Int) := by
  rw [storeWord_entry]
  by_cases h : (a.val : Int) < s.entry.toInt
  · rw [if_pos h, bound_toInt]; omega
  · rw [if_neg h]; omega

/-- Storing a word raises EXIT to its address. -/
theorem storeWord_exit_toInt (s : State) (a : SlotAddr) (w : InstrWord) :
    (storeWord s a w).exit.toInt = max s.exit.toInt (a.val : Int) := by
  rw [storeWord_exit]
  by_cases h : s.exit.toInt < (a.val : Int)
  · rw [if_pos h, bound_toInt]; omega
  · rw [if_neg h]; omega

/-! ### Bytes -/

theorem s8_eq_toInt (b : Byte) : s8 b = b.toInt := by
  unfold s8
  rw [BitVec.toInt_eq_msb_cond, BitVec.msb_eq_getLsbD_last]
  simp

theorem s8_range (b : Byte) : -128 ≤ s8 b ∧ s8 b ≤ 127 := by
  rw [s8_eq_toInt]; constructor <;> have := BitVec.le_toInt b <;> have := BitVec.toInt_lt (x := b) <;> omega

theorem s8_nonneg {b : Byte} (h : 0 ≤ s8 b) : s8 b = b.toNat := by
  unfold s8 at *
  split at h
  · have := b.isLt; omega
  · rename_i hb; rw [if_neg hb]

theorem s8_ofNat_ip {b : Byte} (h : 0 ≤ s8 b) : ((BitVec.ofInt 9 (s8 b)).toNat : Int) = s8 b := by
  have := (s8_range b).2
  rw [BitVec.toNat_ofInt]; omega

/-! ### Counters -/

theorem countAdd_holds (w : CounterWidth) (c n : Nat) :
    match w with
    | .bits k => countAdd w c n < 2 ^ k
    | .unbounded => True := by
  cases w with
  | bits k => exact Nat.mod_lt _ (Nat.two_pow_pos k)
  | unbounded => trivial

/-- Counting twice is counting the sum. -/
theorem countAdd_countAdd (w : CounterWidth) (c m n : Nat) : countAdd w (countAdd w c m) n = countAdd w c (m + n) := by
  cases w with
  | bits k => simp [countAdd, Nat.add_assoc]
  | unbounded => simp [countAdd, Nat.add_assoc]

/-! ### Operands -/

/-- Every way an index is formed (R107). -/
theorem formIndex_cases (s : State) (m : Reg) :
    (s.config.addrMode = .identifier ∧ ∃ idx, formIndex s m = .ok idx ∧ idx.val = m.val) ∨
    (s.config.addrMode = .registerValue ∧ s.config.indexPolicy = .mask ∧
      ∃ idx, formIndex s m = .ok idx ∧ idx.val = (getReg s m).toNat) ∨
    (s.config.addrMode = .registerValue ∧ s.config.indexPolicy = .reject ∧ s8 (getReg s m) < 0 ∧
      formIndex s m = .error .indexOutOfRange) ∨
    (s.config.addrMode = .registerValue ∧ s.config.indexPolicy = .reject ∧ 0 ≤ s8 (getReg s m) ∧
      ∃ idx, formIndex s m = .ok idx ∧ idx.val = (getReg s m).toNat) := by
  unfold formIndex
  cases s.config.addrMode with
  | identifier => exact .inl ⟨rfl, _, rfl, rfl⟩
  | registerValue =>
    cases s.config.indexPolicy with
    | mask => exact .inr (.inl ⟨rfl, rfl, _, rfl, rfl⟩)
    | reject =>
      by_cases h : s8 (getReg s m) < 0
      · exact .inr (.inr (.inl ⟨rfl, rfl, h, by simp [h]⟩))
      · exact .inr (.inr (.inr ⟨rfl, rfl, by omega, ⟨u8 (getReg s m), (getReg s m).isLt⟩, by simp [h], rfl⟩))

/-- An index is formed from the configuration and the register alone. -/
theorem formIndex_congr {s t : State} {m : Reg} (hc : t.config = s.config) (hr : getReg t m = getReg s m) :
    formIndex t m = formIndex s m := by
  simp only [formIndex, hc, hr]

/-- Every way a target resolves (R106). -/
theorem resolveTarget_cases (s : State) (f : Byte) :
    (resolveTarget s f = .ok (BitVec.ofInt 9 (s8 f)) ∧
      (s.exit.toInt < s8 f ∨ (s.entry.toInt ≤ s8 f ∧ s8 f ≤ s.exit.toInt ∧ presentAt s (s8 f) = true))) ∨
    (resolveTarget s f = .error .jumpTargetInvalid ∧ s8 f ≤ s.exit.toInt ∧
      (s8 f < s.entry.toInt ∨ presentAt s (s8 f) = false)) := by
  unfold resolveTarget
  by_cases h1 : s.exit.toInt < s8 f
  · exact .inl ⟨by simp [h1], .inl h1⟩
  · by_cases h2 : s8 f < s.entry.toInt
    · exact .inr ⟨by simp [h1, h2], by omega, .inl h2⟩
    · cases h3 : presentAt s (s8 f) with
      | true => exact .inl ⟨by simp [h1, h2], .inr ⟨by omega, by omega, rfl⟩⟩
      | false => exact .inr ⟨by simp [h1], by omega, .inr rfl⟩

/-- A target resolves by the program and its bounds alone. -/
theorem presentAt_eq_true {s : State} {t : Int} (h : presentAt s t = true) :
    0 ≤ t ∧ (slotAt s t.toNat).present = true := by
  simpa [presentAt] using h

/-- An accepted target (R106). -/
theorem resolveTarget_ok {s : State} {f : Byte}
    (h : s.exit.toInt < s8 f ∨ (s.entry.toInt ≤ s8 f ∧ presentAt s (s8 f) = true)) :
    resolveTarget s f = .ok (BitVec.ofInt 9 (s8 f)) := by
  rcases resolveTarget_cases s f with ⟨h', -⟩ | ⟨-, h1, h2⟩
  · exact h'
  · exfalso
    rcases h with h | ⟨h3, h4⟩
    · omega
    · rcases h2 with h2 | h2
      · omega
      · rw [h4] at h2; cases h2

/-- A rejected target (R106). -/
theorem resolveTarget_rejects {s : State} {f : Byte} (h1 : s8 f ≤ s.exit.toInt)
    (h : s8 f < s.entry.toInt ∨ presentAt s (s8 f) = false) :
    resolveTarget s f = .error .jumpTargetInvalid := by
  rcases resolveTarget_cases s f with ⟨-, h2⟩ | ⟨h', -⟩
  · exfalso
    rcases h2 with h2 | ⟨h3, h4, h5⟩
    · omega
    · rcases h with h | h
      · omega
      · rw [h] at h5; cases h5
  · exact h'

/-- A rejected index (R107). -/
theorem formIndex_rejects {s : State} {m : Reg} (h1 : s.config.addrMode = .registerValue)
    (h2 : s.config.indexPolicy = .reject)
    (h3 : s8 (getReg s m) < 0) : formIndex s m = .error .indexOutOfRange := by
  simp [formIndex, h1, h2, h3]

end Sys2Proof.Machine
end

