-- ==== Sys2Proof/Laws/Exec.lean ====
section
/-! SUPPORT. What each instruction answers, and once for all of them: every way `exec` can end. -/

namespace Sys2Proof.Machine

/-! ### One equation per instruction and outcome -/

theorem exec_mov (d : Reg) (imm : Byte) (s : State) :
    exec (.mov d imm) s = .next (commit (setReg s d imm) (s.ip + 1#9) 1 false false) := rfl

theorem exec_add (d r : Reg) (s : State) :
    exec (.add d r) s =
      .next (commit (setReg s d (trunc8 (s8 (getReg s d) + s8 (getReg s r)))) (s.ip + 1#9) 1 false false) := rfl

theorem exec_addi (d : Reg) (imm : Byte) (s : State) :
    exec (.addi d imm) s =
      .next (commit (setReg s d (trunc8 (s8 (getReg s d) + s8 imm))) (s.ip + 1#9) 1 false false) := rfl

theorem exec_cmp (d r : Reg) (s : State) :
    exec (.cmp d r) s =
      .next (commit (setEq s (decide (getReg s d = getReg s r))) (s.ip + 1#9) 2 false false) := rfl

theorem exec_je_clear (f : Byte) (s : State) (h : s.eq = false) :
    exec (.je f) s = .next (commit s (s.ip + 1#9) 1 false false) := by
  simp [exec, execJe, h, nextSequential]

theorem exec_je_set (f : Byte) (s : State) (h : s.eq = true) : exec (.je f) s = exec (.jmp f) s := by
  simp [exec, execJe, execJmp, h]

theorem exec_jmp_ok {f : Byte} {s : State} {p : Ip} (h : resolveTarget s f = .ok p) :
    exec (.jmp f) s = .next (commit s p 1 false false) := by
  simp [exec, execJmp, jumpTo, h]

theorem exec_jmp_error {f : Byte} {s : State} {c : FaultCause} (h : resolveTarget s f = .error c) :
    exec (.jmp f) s = .next (raiseFault c s) := by
  simp [exec, execJmp, jumpTo, h]

theorem exec_ld_ok {s : State} {m : Reg} {idx : CacheIndex} (d : Reg) (h : formIndex s m = .ok idx) :
    exec (.ld d m) s = .next (commit (setReg (touch s idx) d (memRead s idx)) (s.ip + 1#9)
      (accessCost (validAt s idx)) (validAt s idx) true) := by
  simp [exec, execLd, h, classify, nextSequential]

theorem exec_ld_error {s : State} {m : Reg} {c : FaultCause} (d : Reg) (h : formIndex s m = .error c) :
    exec (.ld d m) s = .next (raiseFault c s) := by
  simp [exec, execLd, h]

theorem exec_st_ok {s : State} {m : Reg} {idx : CacheIndex} (r : Reg) (h : formIndex s m = .ok idx) :
    exec (.st m r) s = .next (commit (memWrite (touch s idx) idx (getReg s r)) (s.ip + 1#9)
      (accessCost (validAt s idx)) (validAt s idx) true) := by
  simp [exec, execSt, h, classify, nextSequential]

theorem exec_st_error {s : State} {m : Reg} {c : FaultCause} (r : Reg) (h : formIndex s m = .error c) :
    exec (.st m r) s = .next (raiseFault c s) := by
  simp [exec, execSt, h]

/-- The only fault an index can raise. -/
theorem formIndex_error {s : State} {m : Reg} {c : FaultCause} (h : formIndex s m = .error c) :
    c = .indexOutOfRange := by
  rcases formIndex_cases s m with ⟨-, _, h', -⟩ | ⟨-, -, _, h', -⟩ | ⟨-, -, -, h'⟩ | ⟨-, -, -, _, h', -⟩ <;>
    rw [h'] at h <;> cases h
  rfl

/-- The only fault a target can raise. -/
theorem resolveTarget_error {s : State} {f : Byte} {c : FaultCause} (h : resolveTarget s f = .error c) :
    c = .jumpTargetInvalid := by
  rcases resolveTarget_cases s f with ⟨h', -⟩ | ⟨h', -⟩ <;> rw [h'] at h <;> cases h
  rfl

/-! ### Every way an instruction can end -/

/-- How an instruction ended, and what it wrote before the step was committed. -/
inductive Ending (s : State) : State → Prop where
  /-- A fault: nothing but the fault record. -/
  | faults (c : FaultCause) (hc : c ≠ .noFault) : Ending s (raiseFault c s)
  /-- A register written or the flag, then on to the next instruction. -/
  | register (r : Reg) (v : Byte) (n : Nat) : Ending s (commit (setReg s r v) (s.ip + 1#9) n false false)
  | flag (b : Bool) (n : Nat) : Ending s (commit (setEq s b) (s.ip + 1#9) n false false)
  | falls (n : Nat) : Ending s (commit s (s.ip + 1#9) n false false)
  /-- A jump to a target that resolved. -/
  | jumps (f : Byte) (p : Ip) (h : resolveTarget s f = .ok p) : Ending s (commit s p 1 false false)
  /-- A load, or a store, through an index that was formed. -/
  | loads (m r : Reg) (idx : CacheIndex) (h : formIndex s m = .ok idx) :
      Ending s (commit (setReg (touch s idx) r (memRead s idx)) (s.ip + 1#9) (accessCost (validAt s idx))
        (validAt s idx) true)
  | stores (m r : Reg) (idx : CacheIndex) (h : formIndex s m = .ok idx) :
      Ending s (commit (memWrite (touch s idx) idx (getReg s r)) (s.ip + 1#9) (accessCost (validAt s idx))
        (validAt s idx) true)

/-- An unconditional jump ends in one of these ways. -/
theorem jmp_ending (f : Byte) (s : State) : ∃ t, exec (.jmp f) s = .next t ∧ Ending s t := by
  cases h : resolveTarget s f with
  | ok p => exact ⟨_, exec_jmp_ok h, .jumps f p h⟩
  | error c => exact ⟨_, exec_jmp_error h, .faults c (by rw [resolveTarget_error h]; decide)⟩

/-- Every instruction answers a next state, reached in one of these ways. -/
theorem exec_ending (i : Instr) (s : State) : ∃ t, exec i s = .next t ∧ Ending s t := by
  cases i with
  | mov d imm => exact ⟨_, exec_mov d imm s, .register d _ 1⟩
  | add d r => exact ⟨_, exec_add d r s, .register d _ 1⟩
  | addi d imm => exact ⟨_, exec_addi d imm s, .register d _ 1⟩
  | cmp d r => exact ⟨_, exec_cmp d r s, .flag _ 2⟩
  | jmp f => exact jmp_ending f s
  | je f =>
    cases h : s.eq with
    | false => exact ⟨_, exec_je_clear f s h, .falls 1⟩
    | true => rw [exec_je_set f s h]; exact jmp_ending f s
  | ld d m =>
    cases h : formIndex s m with
    | ok idx => exact ⟨_, exec_ld_ok d h, .loads m d idx h⟩
    | error c => exact ⟨_, exec_ld_error d h, .faults c (by rw [formIndex_error h]; decide)⟩
  | st m r =>
    cases h : formIndex s m with
    | ok idx => exact ⟨_, exec_st_ok r h, .stores m r idx h⟩
    | error c => exact ⟨_, exec_st_error r h, .faults c (by rw [formIndex_error h]; decide)⟩

/-- The same, from an answer. -/
theorem ending_of_exec {i : Instr} {s t : State} (h : exec i s = .next t) : Ending s t := by
  obtain ⟨u, hu, he⟩ := exec_ending i s
  rw [hu] at h; cases h; exact he

end Sys2Proof.Machine
end

