-- ==== Sys2Proof/Laws/Step.lean ====
section
/-! SUPPORT. What a step and each host operation do, once each. -/

namespace Sys2Proof.Machine

theorem step_not_running {s : State} (h : s.runState ≠ .running) : step s = .next s := by
  simp [step, acceptsStep, h]

theorem step_running_ok {s : State} {i : Instr} (h : s.runState = .running) (hd : fetchDecode s = .ok i) :
    step s = exec i s := by
  simp [step, acceptsStep, h, hd]

theorem step_running_error {s : State} {c : FaultCause} (h : s.runState = .running)
    (hd : fetchDecode s = .error c) : step s = .next (raiseFault c s) := by
  simp [step, acceptsStep, h, hd]

theorem fetchDecode_ok {s : State} {i : Instr} (hp : (slotAt s s.ip.toNat).present = true)
    (hd : decode (slotAt s s.ip.toNat).word = .ok i) : fetchDecode s = .ok i := by
  simp [fetchDecode, fetch, hp, hd]

theorem fetchDecode_absent {s : State} (hp : (slotAt s s.ip.toNat).present = false) :
    fetchDecode s = .error .fetchUnmapped := by
  simp [fetchDecode, fetch, hp]

theorem fetchDecode_undecodable {s : State} {f : DecodeFault} (hp : (slotAt s s.ip.toNat).present = true)
    (hd : decode (slotAt s s.ip.toNat).word = .error f) : fetchDecode s = .error (decodeCause f) := by
  simp [fetchDecode, fetch, hp, hd]

theorem decodeCause_ne_noFault (f : DecodeFault) : decodeCause f ≠ .noFault := by cases f <;> decide

theorem fetchDecode_error_ne_noFault {s : State} {c : FaultCause} (h : fetchDecode s = .error c) : c ≠ .noFault := by
  cases hp : (slotAt s s.ip.toNat).present with
  | false => rw [fetchDecode_absent hp] at h; cases h; decide
  | true =>
    cases hd : decode (slotAt s s.ip.toNat).word with
    | ok i => rw [fetchDecode_ok hp hd] at h; cases h
    | error f => rw [fetchDecode_undecodable hp hd] at h; cases h; exact decodeCause_ne_noFault f

/-- Every way a step can end: nothing outside RUNNING, else a fault or an instruction's ending. -/
theorem step_ending (s : State) :
    (s.runState ≠ .running ∧ step s = .next s) ∨
    (s.runState = .running ∧ ∃ t, step s = .next t ∧ Ending s t) := by
  by_cases h : s.runState = .running
  · refine .inr ⟨h, ?_⟩
    cases hd : fetchDecode s with
    | ok i => rw [step_running_ok h hd]; exact exec_ending i s
    | error c => exact ⟨_, step_running_error h hd, .faults c (fetchDecode_error_ne_noFault hd)⟩
  · exact .inl ⟨h, step_not_running h⟩

theorem hostStep_eq {s t : State} (h : step s = .next t) : hostStep s = t := by simp [hostStep, h]

theorem step_eq_hostStep (s : State) : step s = .next (hostStep s) := by
  rcases step_ending s with ⟨-, h⟩ | ⟨-, t, h, -⟩ <;> rw [h, hostStep_eq h]

/-! ### The operations where they are ignored -/

theorem hostLoad_ignored {s : State} (a : SlotAddr) (w : InstrWord) (h : s.runState ≠ .idle) : hostLoad a w s = s := by
  simp [hostLoad, h]

theorem hostLoad_idle {s : State} (a : SlotAddr) (w : InstrWord) (h : s.runState = .idle) :
    hostLoad a w s = storeWord s a w := by
  simp [hostLoad, h]

theorem hostStart_ignored {s : State} (h : s.runState ≠ .idle) : hostStart s = s := by
  simp [hostStart, h]

@[simp] theorem applyOps_nil (s : State) : applyOps s [] = s := rfl

@[simp] theorem applyOps_cons (s : State) (op : HostOp) (ops : List HostOp) :
    applyOps s (op :: ops) = applyOps (applyOp s op) ops := rfl

/-- What every host operation but those excluded keeps, every sequence of them keeps. -/
theorem applyOps_induct {P : State → Prop} {ops : List HostOp} (hop : ∀ s op, op ∈ ops → P s → P (applyOp s op)) :
    ∀ s, P s → P (applyOps s ops) := by
  induction ops with
  | nil => intro s h; exact h
  | cons op ops ih =>
    intro s h
    exact ih (fun s o ho => hop s o (by simp [ho])) _ (hop s op (by simp) h)

/-! ### What an ending leaves alone -/

theorem SameProgram.refl (s : State) : SameProgram s s := ⟨rfl, fun _ => rfl, rfl, rfl⟩

theorem SameProgram.trans {s t u : State} (h : SameProgram s t) (g : SameProgram t u) : SameProgram s u :=
  ⟨g.config.trans h.config, fun a => (g.slots a).trans (h.slots a), g.entry.trans h.entry, g.exit.trans h.exit⟩

theorem Ending.sameProgram {s t : State} (h : Ending s t) : SameProgram s t := by
  cases h <;> exact ⟨rfl, fun _ => rfl, rfl, rfl⟩

theorem faultedWith_raiseFault (c : FaultCause) (s : State) : FaultedWith c s (raiseFault c s) where
  runState := rfl
  faultCause := rfl
  faultIp := rfl
  regs _ := rfl
  flag := rfl
  ip := rfl
  cache _ := rfl
  valid _ := rfl
  program := ⟨rfl, fun _ => rfl, rfl, rfl⟩
  execCount := rfl
  cycles := rfl
  hits := rfl
  ldst := rfl

/-- A commit after writes that touched only registers, the flag, the data store and its bitmap completes the
instruction. -/
theorem completed_commit {s u : State} (p : Ip) (n : Nat) (h m : Bool)
    (hu : u = { s with x := u.x, eq := u.eq, cache := u.cache, valid := u.valid }) :
    Completed s (commit u p n h m) p n h m := by
  rw [hu]
  exact ⟨rfl, rfl, by cases h <;> rfl, by cases m <;> rfl, rfl, rfl, ⟨rfl, fun _ => rfl, rfl, rfl⟩, rfl, rfl⟩

end Sys2Proof.Machine
end

