-- ==== Sys2Proof/Laws/Run.lean ====
section
/-! SUPPORT. How a step ends, and what it completes and counts. -/

namespace Sys2Proof.Machine

/-- An ending is a fault, or a commit after writes that touched only registers, flag, data store and bitmap. -/
theorem ending_faults_or_commits {s t : State} (h : Ending s t) :
    (∃ c, c ≠ .noFault ∧ t = raiseFault c s) ∨
    (∃ u p n k m, t = commit u p n k m ∧
      u = { s with x := u.x, eq := u.eq, cache := u.cache, valid := u.valid }) := by
  cases h with
  | faults c hc => exact .inl ⟨c, hc, rfl⟩
  | _ => exact .inr ⟨_, _, _, _, _, rfl, rfl⟩

/-- A committed step of a running block has not faulted. -/
theorem commit_runState_ne_faulted {s u : State} (hr : s.runState = .running) (p n k m)
    (hu : u = { s with x := u.x, eq := u.eq, cache := u.cache, valid := u.valid }) :
    (commit u p n k m).runState ≠ .faulted := by
  rw [commit_runState, hu]
  simp only
  split <;> simp [hr]

/-- What retires is the instruction. -/
theorem retiredAs_instr (i : Instr) (s : State) : (retiredAs i s).instr = i := by cases i <;> rfl

/-- A step that completes an instruction ran the one that was fetched and decoded. -/
theorem completedBy_eq_some {s : State} {r : Retired} (h : completedBy s = some r) :
    s.runState = .running ∧ ∃ i t, fetchDecode s = .ok i ∧ exec i s = .next t ∧ hostStep s = t ∧
      t.runState ≠ .faulted ∧ r = retiredAs i s := by
  by_cases hr : s.runState = .running
  · refine ⟨hr, ?_⟩
    cases hd : fetchDecode s with
    | error c => simp [completedBy, acceptsStep, hr, hd] at h
    | ok i =>
      obtain ⟨t, ht, -⟩ := exec_ending i s
      have hs := hostStep_eq ((step_running_ok hr hd).trans ht)
      simp only [completedBy, acceptsStep, hr, hd, hs] at h
      by_cases hf : t.runState = .faulted
      · simp [hf] at h
      · simp [hf] at h; exact ⟨i, t, rfl, ht, hs, hf, h.symm⟩
  · simp [completedBy, acceptsStep, hr] at h

/-- A step that completes none changes nothing or raises a fault. -/
theorem completedBy_eq_none {s : State} (h : completedBy s = none) : 
    (hostStep s = s) ∨ ∃ c, hostStep s = raiseFault c s := by
  rcases step_ending s with ⟨-, hs⟩ | ⟨hr, t, hs, he⟩
  · exact .inl (hostStep_eq hs)
  · rw [hostStep_eq hs]
    rcases ending_faults_or_commits he with ⟨c, -, rfl⟩ | ⟨u, p, n, k, m, rfl, hu⟩
    · exact .inr ⟨c, rfl⟩
    · exfalso
      have hn := commit_runState_ne_faulted hr p n k m hu
      cases hd : fetchDecode s with
      | error c => rw [step_running_error hr hd] at hs; injection hs with hs; rw [← hs] at hn; exact hn rfl
      | ok i =>
        simp only [completedBy, acceptsStep, hr, hd, hostStep_eq hs] at h
        rw [if_neg hn] at h; simp at h

/-- What a completed instruction adds to the counters, all eight together (R85, R86). -/
theorem exec_completed {i : Instr} {s t : State} (h : exec i s = .next t) (hn : t.runState ≠ .faulted) :
    ∃ p, Completed s t p (retiredAs i s).cost (retiredAs i s).hit (isMemInstr i) := by
  have nf : ∀ c, t ≠ raiseFault c s := by rintro c rfl; exact hn rfl
  have jmp : ∀ f, exec (.jmp f) s = .next t → ∃ p, Completed s t p 1 false false := by
    intro f h
    cases h' : resolveTarget s f with
    | ok p => rw [exec_jmp_ok h'] at h; cases h; exact ⟨_, completed_commit _ _ _ _ rfl⟩
    | error c => rw [exec_jmp_error h'] at h; cases h; exact absurd rfl (nf c)
  cases i with
  | mov d imm => cases h; exact ⟨_, completed_commit _ _ _ _ rfl⟩
  | add d imm => cases h; exact ⟨_, completed_commit _ _ _ _ rfl⟩
  | addi d imm => cases h; exact ⟨_, completed_commit _ _ _ _ rfl⟩
  | cmp d imm => cases h; exact ⟨_, completed_commit _ _ _ _ rfl⟩
  | jmp f => exact jmp f h
  | je f =>
    cases he : s.eq with
    | false => rw [exec_je_clear f s he] at h; cases h; exact ⟨_, completed_commit _ _ _ _ rfl⟩
    | true => rw [exec_je_set f s he] at h; exact jmp f h
  | ld d m =>
    cases h' : formIndex s m with
    | ok idx =>
      rw [exec_ld_ok d h'] at h; cases h
      simp only [retiredAs, accessHits, h']; exact ⟨_, completed_commit _ _ _ _ rfl⟩
    | error c => rw [exec_ld_error d h'] at h; cases h; exact absurd rfl (nf c)
  | st m d =>
    cases h' : formIndex s m with
    | ok idx =>
      rw [exec_st_ok d h'] at h; cases h
      simp only [retiredAs, accessHits, h']; exact ⟨_, completed_commit _ _ _ _ rfl⟩
    | error c => rw [exec_st_error d h'] at h; cases h; exact absurd rfl (nf c)

/-- A count fits its counter (R26). -/
theorem counterHolds_countAdd (w : CounterWidth) (c n : Nat) : counterHolds w (countAdd w c n) := by
  cases w with
  | bits k => exact Nat.mod_lt _ (Nat.two_pow_pos k)
  | unbounded => trivial

/-- Counting nothing. -/
theorem countAdd_zero {w : CounterWidth} {c : Nat} (h : counterHolds w c) : countAdd w c 0 = c := by
  cases w with
  | bits k => exact Nat.mod_eq_of_lt h
  | unbounded => rfl

/-- A step leaves the program as it is (R52). -/
theorem hostStep_sameProgram (s : State) : SameProgram s (hostStep s) := by
  rcases step_ending s with ⟨-, h⟩ | ⟨-, t, h, he⟩ <;> rw [hostStep_eq h]
  · exact SameProgram.refl s
  · exact he.sameProgram

/-- A step never leads to IDLE (R23). -/
theorem hostStep_not_idle {s : State} (h : s.runState ≠ .idle) : (hostStep s).runState ≠ .idle := by
  rcases step_ending s with ⟨-, h'⟩ | ⟨hr, t, h', he⟩ <;> rw [hostStep_eq h']
  · exact h
  · rcases ending_faults_or_commits he with ⟨c, hc, rfl⟩ | ⟨u, p, n, k, m, rfl, hu⟩
    · simp
    · rw [commit_runState, hu]; simp only; split
      · simp
      · simp [hr]

end Sys2Proof.Machine
end

