-- ==== Sys2Proof/Laws/Inv.lean ====
section
/-! SUPPORT. The parts of the machine's invariant, and the two ways a step ends. -/

namespace Sys2Proof.Machine

/-- Nothing touched. -/
theorem touchedCount_zero (s : State) (h : ∀ idx, validAt s idx = false) : touchedCount s = 0 := by
  unfold touchedCount
  rw [Finset.card_eq_zero, Finset.filter_eq_empty_iff]
  intro x _ hx; rw [h x] at hx; cases hx

/-- Touching an index counts it if it had not been touched. -/
theorem touchedCount_touch (s : State) (j : CacheIndex) :
    touchedCount (touch s j) + (if validAt s j then 1 else 0) = touchedCount s + 1 := by
  unfold touchedCount
  cases h : validAt s j with
  | true =>
    have : (Finset.univ.filter fun idx : CacheIndex => validAt (touch s j) idx = true) =
        Finset.univ.filter fun idx : CacheIndex => validAt s idx = true := by
      apply Finset.filter_congr
      intro x _
      rw [validAt_touch]
      by_cases hx : j = x
      · subst hx; simp [h]
      · simp [hx]
    rw [this]; rfl
  | false =>
    have : (Finset.univ.filter fun idx : CacheIndex => validAt (touch s j) idx = true) =
        insert j (Finset.univ.filter fun idx : CacheIndex => validAt s idx = true) := by
      ext x
      simp only [Finset.mem_filter, Finset.mem_univ, true_and, Finset.mem_insert, validAt_touch,
        Bool.or_eq_true, decide_eq_true_eq]
      constructor
      · rintro (h | h); exact .inl h.symm; exact .inr h
      · rintro (h | h); exact .inl h.symm; exact .inr h
    rw [this, Finset.card_insert_of_notMem (by simp [h])]; rfl

/-- Where the bounds and IP are while the block is RUNNING (R15, R22). -/
theorem Inv_running_bounds {s : State} (hi : s.Inv) (hr : s.runState = .running) :
    0 ≤ s.entry.toInt ∧ s.entry.toInt ≤ s.exit.toInt ∧ s.exit.toInt ≤ 255 ∧
      s.entry.toInt ≤ (s.ip.toNat : Int) ∧ (s.ip.toNat : Int) ≤ s.exit.toInt := by
  have h := hi.running hr
  rcases hi.bounds with h' | ⟨h1, h2, h3, -⟩ <;> omega

/-- While the block is RUNNING the next sequential address fits in IP (R93). -/
theorem Inv_next_ip {s : State} (hi : s.Inv) (hr : s.runState = .running) : (s.ip + 1#9).toNat = s.ip.toNat + 1 := by
  have := Inv_running_bounds hi hr
  rw [BitVec.toNat_add]; simp; omega

/-- The indexes a configuration can form (R35). -/
theorem formIndex_reach {s : State} {m : Reg} {idx : CacheIndex} (h : formIndex s m = .ok idx) :
    (s.config.addrMode = .identifier → idx.val ≤ 5) ∧
    (s.config.addrMode = .registerValue → s.config.indexPolicy = .reject → idx.val ≤ 127) := by
  rcases formIndex_cases s m with ⟨h1, j, h2, h3⟩ | ⟨h1, h1', j, h2, h3⟩ | ⟨h1, h1', h2, h3⟩ |
      ⟨h1, h1', h2', j, h2, h3⟩
  · rw [h2] at h; cases h
    refine ⟨fun _ => by omega, fun hh => ?_⟩
    rw [h1] at hh; cases hh
  · exact ⟨fun hh => by (rw [h1] at hh; cases hh), fun _ hh => by (rw [h1'] at hh; cases hh)⟩
  · rw [h3] at h; cases h
  · rw [h2] at h; cases h
    have e := s8_nonneg h2'
    have := (s8_range (getReg s m)).2
    exact ⟨fun hh => by (rw [h1] at hh; cases hh), fun _ _ => by omega⟩

/-- The presence of a slot, read at its address as an integer. -/
theorem presentAt_slot {s : State} (a : SlotAddr) (h : (slotAt s a.val).present = true) :
    presentAt s (a.val : Int) = true := by
  simp [presentAt, h]

/-- A fault keeps the invariant. -/
theorem raiseFault_inv {s : State} (hi : s.Inv) (hr : s.runState = .running) (c : FaultCause)
    (hc : c ≠ .noFault) : (raiseFault c s).Inv where
  cacheCanonical := hi.cacheCanonical
  validCanonical := hi.validCanonical
  imemCanonical := hi.imemCanonical
  presentInside := hi.presentInside
  bounds := hi.bounds
  ipRange := hi.ipRange
  idle h := by cases h
  running h := by cases h
  halted h := by cases h
  faulted _ := ⟨hc, rfl, hi.running hr⟩
  faultFree h := absurd rfl h
  countersFit := hi.countersFit
  untouched := hi.untouched
  identifierMode := hi.identifierMode
  rejectMode := hi.rejectMode
  accounts := hi.accounts

/-- A commit keeps the invariant, if the instruction's own writes and its next IP do. -/
theorem commit_inv {s u : State} (hi : s.Inv) (hr : s.runState = .running)
    (hu : u = { s with x := u.x, eq := u.eq, cache := u.cache, valid := u.valid })
    (hcache : Memory.wf s.config u.cache) (hvalid : Sparse.wf validUnlisted u.valid)
    (hunt : ∀ idx : CacheIndex, validAt u idx = false → memRead u idx = cacheUnlisted s.config idx.val)
    (hid : s.config.addrMode = .identifier → ∀ idx : CacheIndex, validAt u idx = true → idx.val ≤ 5)
    (hrej : s.config.addrMode = .registerValue → s.config.indexPolicy = .reject →
      ∀ idx : CacheIndex, validAt u idx = true → idx.val ≤ 127)
    {p : Ip} (n : Nat) {k m : Bool} (hp1 : p.toNat ≤ 256) (hp2 : s.entry.toInt ≤ (p.toNat : Int))
    (hacc : touchedCount u + (if k then 1 else 0) = touchedCount s + (if m then 1 else 0)) :
    (commit u p n k m).Inv := by
  have hcfg : u.config = s.config := by rw [hu]
  have himem : u.imem = s.imem := by rw [hu]
  have hen : u.entry = s.entry := by rw [hu]
  have hex : u.exit = s.exit := by rw [hu]
  have hrs : u.runState = .running := by rw [hu]; exact hr
  have hne : u.runState ≠ .faulted := by rw [hrs]; decide
  have hfc : u.faultCause = s.faultCause := by rw [hu]
  have hfi : u.faultIp = s.faultIp := by rw [hu]
  have hslot : ∀ a, slotAt u a = slotAt s a := by intro a; rw [hu]; rfl
  have hpres : ∀ a, presentAt (commit u p n k m) a = presentAt s a := by intro a; simp [presentAt, hslot]
  constructor
  · simpa [hcfg] using hcache
  · simpa using hvalid
  · simpa [himem] using hi.imemCanonical
  · simpa [hslot, hen, hex] using hi.presentInside
  · simpa [hpres, hen, hex] using hi.bounds
  · simpa using hp1
  · intro h; rw [commit_runState, hrs] at h; split at h <;> cases h
  · intro h
    rw [commit_runState, hrs] at h
    split at h
    · cases h
    · rename_i hx
      simp only [commit_entry, commit_ip, commit_exit, hen, hex] at *
      omega
  · intro h
    rw [commit_runState, hrs] at h
    split at h
    · rename_i hx; exact hx
    · cases h
  · intro h; rw [commit_runState, hrs] at h; split at h <;> cases h
  · intro _; simpa [hfc, hfi] using hi.faultFree (by rw [hr]; decide)
  · simp only [commit_config, commit_execCount, commit_cycles, commit_hits, commit_ldst]
    exact ⟨counterHolds_countAdd _ _ _, counterHolds_countAdd _ _ _, counterHolds_countAdd _ _ _,
      counterHolds_countAdd _ _ _⟩
  · simpa [hcfg] using hunt
  · simpa [hcfg] using hid
  · simpa [hcfg] using hrej
  · intro hw
    have hw' : s.config.counterWidth = .unbounded := by simpa [hcfg] using hw
    obtain ⟨h1, h2⟩ := hi.accounts hw'
    have ht : touchedCount (commit u p n k m) = touchedCount u := rfl
    have e1 : u.execCount = s.execCount := by rw [hu]
    have e2 : u.hits = s.hits := by rw [hu]
    have e3 : u.ldst = s.ldst := by rw [hu]
    simp only [commit_execCount, commit_hits, commit_ldst, ht, hcfg, hw', countAdd, e1, e2, e3]
    constructor
    · omega
    · split <;> omega

end Sys2Proof.Machine
end

