-- ==== Sys2Proof/Laws/PerInstr.lean ====
section
/-! SUPPORT. What is said of every instruction as syntax, one lemma per constructor. Family EncodesLegally: the fields the
encoder writes are a legal record under the table of field roles (30_encoding.md R57, R65). -/

namespace Sys2Proof.Laws.EncodesLegally

/-- The fields of the encoded instruction are legal. -/
def Statement (i : Instr) : Prop := (encodeFields i).wellFormed = true

theorem admits_encodeReg (r : Reg) : FieldRole.register.admits (encodeReg r) = true := by
  have := r.isLt
  simp only [FieldRole.admits, encodeReg_toNat, decide_eq_true_eq]; omega

theorem admits_memoryId (r : Reg) : FieldRole.memoryId.admits (encodeReg r) = true := admits_encodeReg r

theorem wellFormed_of_roles {f : Fields} {r q : FieldRole} (h : fieldRoles f.op = some (r, q))
    (h0 : r.admits f.op0 = true) (h1 : q.admits f.op1 = true) : f.wellFormed = true := by
  simp [Fields.wellFormed, Fields.opcodeLegal, Fields.op0Legal, Fields.op1Legal, h, h0, h1]

theorem mov (d : Reg) (imm : Byte) : Statement (.mov d imm) := wellFormed_of_roles rfl (admits_encodeReg d) rfl

theorem add (d s : Reg) : Statement (.add d s) := wellFormed_of_roles rfl (admits_encodeReg d) (admits_encodeReg s)

theorem addi (d : Reg) (imm : Byte) : Statement (.addi d imm) := wellFormed_of_roles rfl (admits_encodeReg d) rfl

theorem ld (d m : Reg) : Statement (.ld d m) := wellFormed_of_roles rfl (admits_encodeReg d) (admits_memoryId m)

theorem st (m s : Reg) : Statement (.st m s) := wellFormed_of_roles rfl (admits_memoryId m) (admits_encodeReg s)

theorem cmp (d s : Reg) : Statement (.cmp d s) := wellFormed_of_roles rfl (admits_encodeReg d) (admits_encodeReg s)

theorem je (t : Byte) : Statement (.je t) := wellFormed_of_roles rfl rfl rfl

theorem jmp (t : Byte) : Statement (.jmp t) := wellFormed_of_roles rfl rfl rfl

end Sys2Proof.Laws.EncodesLegally
end

