-- ==== Sys2Proof/Tests/Slice0.lean ====
section
/-! SUPPORT. Tests of the model against words and values written out from the spec (95_test_vectors.md and the worked
examples of its rules), and a witness for the hypotheses of every obligation that has some. -/

namespace Sys2Proof.Tests

open Sys2Proof Sys2Proof.Machine

/-! ### WellFormed: each check refuses an ill-formed record -/

theorem test_wf_accepts_jmp : Fields.wellFormed ⟨0x07#8, 0xFD#8, 0x00#8⟩ = true := by decide

theorem test_wf_refuses_opcode : Fields.opcodeLegal ⟨0x08#8, 0x00#8, 0x00#8⟩ = false ∧
    Fields.wellFormed ⟨0x08#8, 0x00#8, 0x00#8⟩ = false := by decide

theorem test_wf_refuses_op0_register : Fields.op0Legal ⟨0x00#8, 0x06#8, 0xFF#8⟩ = false ∧
    Fields.wellFormed ⟨0x00#8, 0x06#8, 0xFF#8⟩ = false := by decide

theorem test_wf_refuses_op0_memory_id : Fields.op0Legal ⟨0x04#8, 0x06#8, 0x00#8⟩ = false ∧
    Fields.wellFormed ⟨0x04#8, 0x06#8, 0x00#8⟩ = false := by decide

theorem test_wf_refuses_op1_register : Fields.op1Legal ⟨0x01#8, 0x00#8, 0xFF#8⟩ = false ∧
    Fields.wellFormed ⟨0x01#8, 0x00#8, 0xFF#8⟩ = false := by decide

theorem test_wf_refuses_reserved : Fields.op1Legal ⟨0x06#8, 0x0F#8, 0x01#8⟩ = false ∧
    Fields.wellFormed ⟨0x06#8, 0x0F#8, 0x01#8⟩ = false := by decide

/-! ### Decoding: words written bit by bit from the encodings of R54, R56, R57 -/

/-- `MOV R6, 127` (V-ALU-11): op 0x00, op0 = 5, op1 = 0x7F. -/
theorem test_decode_mov : decode 0b00000000_00000101_01111111#24 = .ok (.mov 5 0x7F#8) := by decide

/-- `ADD R3, R4` (R97): op 0x01, op0 = 2, op1 = 3. -/
theorem test_decode_add : decode 0b00000001_00000010_00000011#24 = .ok (.add 2 3) := by decide

/-- `ADD R2, -1` (P1, address 4): op 0x02, op0 = 1, op1 = 0xFF. -/
theorem test_decode_addi : decode 0b00000010_00000001_11111111#24 = .ok (.addi 1 0xFF#8) := by decide

/-- `LD R5, [R3]` (V-LS-5): op 0x03, op0 = 4, op1 = 2. -/
theorem test_decode_ld : decode 0b00000011_00000100_00000010#24 = .ok (.ld 4 2) := by decide

/-- `ST [R4], R1` (P1, address 8): op 0x04, op0 = 3, op1 = 0. -/
theorem test_decode_st : decode 0b00000100_00000011_00000000#24 = .ok (.st 3 0) := by decide

/-- `CMP R2, R3` (P1, address 5): op 0x05, op0 = 1, op1 = 2. -/
theorem test_decode_cmp : decode 0b00000101_00000001_00000010#24 = .ok (.cmp 1 2) := by decide

/-- `JE -128` (V-DEC-15): op 0x06, op0 = 0x80, op1 = 0x00. -/
theorem test_decode_je : decode 0b00000110_10000000_00000000#24 = .ok (.je 0x80#8) := by decide

/-- `JMP 100` (V-EX-9): op 0x07, op0 = 0x64, op1 = 0x00. -/
theorem test_decode_jmp : decode 0b00000111_01100100_00000000#24 = .ok (.jmp 0x64#8) := by decide

/-- V-DEC-4, V-DEC-12, V-DEC-16, V-DEC-17: words that do not decode. -/
theorem test_decode_faults :
    decode 0x0100FF#24 = .error .illegalRegister ∧ decode 0x0006FF#24 = .error .illegalRegister ∧
    decode 0x010906#24 = .error .illegalRegister ∧ decode 0x0705FF#24 = .error .reservedNonzero := by decide

/-- The bytes of 0x060F00, opcode first (R37). -/
theorem test_bytes_of_word : bytesOfWord 0x060F00#24 = [0x06#8, 0x0F#8, 0x00#8] := by decide

/-- The table's numbering of a word: V-DEC-13, and a row with only its opcode byte. -/
theorem test_decode_table_word : decodeTableWord 24 0x050505 = some (.cmp 5 5) ∧
    decodeTableWord 24 0x080000 = none ∧ decodeTableWord 32 0x050505 = none := by decide

/-- The control record of `CMP R1, R2` (R67): no register written, the flag written, cost 2. -/
theorem test_control_cmp : (controlRecord (.cmp 0 1)).regWe = false ∧ (controlRecord (.cmp 0 1)).flagWe = true ∧
    (controlRecord (.cmp 0 1)).baseCost = .fixed 2 := by decide

/-! ### States the tests start from -/

/-- A block in RUNNING with these slots, bounds and IP, and the rest as reset leaves it. -/
def block (c : Config) (prog : List (Nat × InstrWord)) (lo hi ip : Int) : State :=
  { State.resetWith c with
    imem     := prog.map fun p => (p.1, ⟨true, p.2⟩)
    entry    := BitVec.ofInt 10 lo
    exit     := BitVec.ofInt 10 hi
    ip       := BitVec.ofInt 9 ip
    runState := .running }

/-- The word at IP 0 of a program of two slots (the context of the V-ALU and V-LS vectors). -/
def at0 (c : Config) (w : InstrWord) : State := block c [(0, w), (1, 0#24)] 0 1 0

/-- The word at IP 2 of a program with slots 0..9 but 5 (the context of the V-BR vectors). -/
def at2 (w : InstrWord) : State :=
  block Config.default [(0, 0#24), (1, 0#24), (2, w), (3, 0#24), (4, 0#24), (6, 0#24), (7, 0#24), (8, 0#24), (9, 0#24)]
    0 9 2

/-- Register values put in place. -/
def withRegs (s : State) (a b : Byte) : State := setReg (setReg s 0 a) 1 b

/-- RegisterValue addressing under a policy. -/
def regMode (p : IndexPolicy) : Config := { Config.default with addrMode := .registerValue, indexPolicy := p }

/-! ### One step each -/

/-- V-ALU-1. -/
theorem test_mov_overwrites : getReg (hostStep (withRegs (at0 Config.default 0x000080#24) 0x33#8 0#8)) 0 = 0x80#8 ∧
    (hostStep (withRegs (at0 Config.default 0x000080#24) 0x33#8 0#8)).ip = 1#9 := by decide

/-- V-ALU-3: -128 + -1 = 127. -/
theorem test_add_wraps_down :
    getReg (hostStep (withRegs (at0 Config.default 0x010001#24) 0x80#8 0xFF#8)) 0 = 0x7F#8 := by decide

/-- V-ALU-9: no flag written, the second register kept. -/
theorem test_add_keeps_flag : (hostStep (setEq (withRegs (at0 Config.default 0x010001#24) 0xFF#8 0x01#8) true)).eq = true ∧
    getReg (hostStep (setEq (withRegs (at0 Config.default 0x010001#24) 0xFF#8 0x01#8) true)) 1 = 0x01#8 := by decide

/-- V-ALU-8: -1 + -128 = 127, cost 1. -/
theorem test_addi_wraps : getReg (hostStep (withRegs (at0 Config.default 0x020080#24) 0xFF#8 0#8)) 0 = 0x7F#8 ∧
    (hostStep (withRegs (at0 Config.default 0x020080#24) 0xFF#8 0#8)).cycles = 1 := by decide

/-- V-BR-2: unequal clears the flag; cost 2. -/
theorem test_cmp_clears : (hostStep (setEq (withRegs (at2 0x050001#24) 0x05#8 0x06#8) true)).eq = false ∧
    (hostStep (setEq (withRegs (at2 0x050001#24) 0x05#8 0x06#8) true)).cycles = 2 := by decide

/-- V-BR-1: equal sets it. -/
theorem test_cmp_sets : (hostStep (withRegs (at2 0x050001#24) 0x05#8 0x05#8)).eq = true := by decide

/-- V-BR-7: a target that is not taken is not checked. -/
theorem test_je_not_taken : (hostStep (at2 0x06FB00#24)).ip = 3#9 ∧
    (hostStep (at2 0x06FB00#24)).runState = .running := by decide

/-- V-BR-9: taken to an absent slot. -/
theorem test_je_into_gap : (hostStep (setEq (at2 0x060500#24) true)).faultCause = .jumpTargetInvalid ∧
    (hostStep (setEq (at2 0x060500#24) true)).ip = 2#9 := by decide

/-- V-BR-13: one past EXIT halts. -/
theorem test_jmp_past_exit : (hostStep (at2 0x070A00#24)).runState = .halted ∧
    (hostStep (at2 0x070A00#24)).ip = 10#9 := by decide

/-- V-BR-15: below ENTRY faults. -/
theorem test_jmp_below_entry :
    (hostStep (block Config.default [(4, 0#24), (5, 0#24), (6, 0x070200#24)] 4 6 6)).faultCause = .jumpTargetInvalid := by
  decide

/-- V-LS-12: the index is read before the register is overwritten. -/
theorem test_ld_reads_index_first :
    getReg (hostStep (memWrite (withRegs (at0 (regMode .mask) 0x030101#24) 0#8 0x05#8) 5 0x09#8)) 1 = 0x09#8 := by decide

/-- V-LS-2: a hit costs 2 and counts. -/
theorem test_ld_hits : (hostStep (touch (at0 Config.default 0x030001#24) 1)).cycles = 2 ∧
    (hostStep (touch (at0 Config.default 0x030001#24) 1)).hits = 1 := by decide

/-- V-LS-9: -128 masks to index 128; a miss stores. -/
theorem test_st_masks : memRead (hostStep (withRegs (at0 (regMode .mask) 0x040100#24) 0x44#8 0x80#8)) 128 = 0x44#8 ∧
    (hostStep (withRegs (at0 (regMode .mask) 0x040100#24) 0x44#8 0x80#8)).cycles = 40 := by decide

/-- V-LS-10: -128 is rejected and no VALID bit set. -/
theorem test_st_rejects :
    (hostStep (withRegs (at0 (regMode .reject) 0x040100#24) 0x44#8 0x80#8)).faultCause = .indexOutOfRange ∧
    validAt (hostStep (withRegs (at0 (regMode .reject) 0x040100#24) 0x44#8 0x80#8)) 128 = false := by decide

/-- V-EX-5: fetch of an absent slot inside the bounds. -/
theorem test_fetch_unmapped :
    (hostStep (block Config.default [(0, 0x000001#24), (2, 0x000102#24)] 0 2 1)).faultCause = .fetchUnmapped ∧
    (hostStep (block Config.default [(0, 0x000001#24), (2, 0x000102#24)] 0 2 1)).faultIp = 1#9 := by decide

/-- V-EX-8: a counter of 8 bits wraps. -/
theorem test_counter_wraps : (hostStep (State.mk
    { Config.default with counterWidth := .bits 8 } (at0 Config.default 0#24).x false 0 [] []
    (at0 Config.default 0x030001#24).imem 0 1 .running .noFault 0 0 250 0 0)).cycles = 34 := by decide

/-- V-EX-1. -/
theorem test_start_empty : (hostStart State.reset).runState = .halted ∧ (hostStart State.reset).ip = 256#9 := by decide

/-- V-EX-2. -/
theorem test_load_bounds : (hostLoad 3 0#24 (hostLoad 7 0#24 State.reset)).entry = 3#10 ∧
    (hostLoad 3 0#24 (hostLoad 7 0#24 State.reset)).exit = 7#10 := by decide

/-- V-LS-13: CACHE_INIT is what an untouched cell reads as. -/
theorem test_cache_init :
    memRead (State.resetWith { Config.default with cacheInit := [(3, 0x5A#8)] }) 3 = 0x5A#8 := by decide

/-- The word placed for the next fetch is run by the next step. -/
theorem test_with_fetch_word : getReg (hostStep (State.reset.withFetchWord 24 0x000080)) 0 = 0x80#8 ∧
    (hostStep (State.reset.withFetchWord 24 0x000080)).ip = 1#9 := by decide

/-- `4<tab>ADD R2, -1` (P1). -/
theorem test_assembler_line : asmLine ['4', '\t', 'A', 'D', 'D', ' ', 'R', '2', ',', ' ', '-', '1'] =
    some (4, .addi 1 0xFF#8) := by decide

/-- The report's first value with no slot present (R128). -/
theorem test_report_empty : (reportValues State.reset).instructionsInCode = -256 := by decide

/-! ### Witnesses: hypotheses of the obligations that can be met -/

/-- A running block whose program is one word, in slot 5. -/
def single (w : InstrWord) : State := block Config.default [(5, w)] 5 5 5

/-- Its bounds. -/
def five : Bound := BitVec.ofInt 10 5

/-- The same block before Start. -/
def singleIdle (w : InstrWord) : State := { single w with ip := 0, runState := .idle }

theorem single_slot (w : InstrWord) (a : Nat) : slotAt (single w) a = if 5 = a then ⟨true, w⟩ else ⟨false, 0#24⟩ := rfl

theorem single_imem_wf (w : InstrWord) : Sparse.wf slotUnlisted [(5, ⟨true, w⟩)] := by
  refine ⟨by simp, fun e he => ?_⟩
  rw [List.mem_singleton] at he
  subst he
  simp [slotUnlisted]

theorem single_present {w : InstrWord} {a : SlotAddr} (h : (slotAt (single w) a.val).present = true) :
    (5 : Int) ≤ (a.val : Int) ∧ (a.val : Int) ≤ 5 := by
  rw [single_slot] at h
  by_cases e : 5 = a.val
  · omega
  · rw [if_neg e] at h; cases h

/-- The running block meets the invariant. -/
theorem witness_inv_running (w : InstrWord) : (single w).Inv where
  cacheCanonical := Sparse.nil_wf
  validCanonical := Sparse.nil_wf
  imemCanonical := single_imem_wf w
  presentInside _ h := single_present h
  bounds := .inr ⟨(by decide : (0 : Int) ≤ five.toInt), le_refl _, (by decide : five.toInt ≤ 255), rfl, rfl⟩
  ipRange := (by decide : (BitVec.ofInt 9 5).toNat ≤ 256)
  idle h := by cases h
  running _ := ⟨(by decide : five.toInt ≤ ((BitVec.ofInt 9 5).toNat : Int)),
    (by decide : ((BitVec.ofInt 9 5).toNat : Int) ≤ five.toInt)⟩
  halted h := by cases h
  faulted h := by cases h
  faultFree _ := ⟨rfl, rfl⟩
  countersFit := ⟨Nat.two_pow_pos 32, Nat.two_pow_pos 32, Nat.two_pow_pos 32, Nat.two_pow_pos 32⟩
  untouched _ _ := rfl
  identifierMode _ _ h := by cases h
  rejectMode h := by cases h
  accounts h := by cases h

/-- The block before Start meets it. -/
theorem witness_inv_idle (w : InstrWord) : (singleIdle w).Inv where
  cacheCanonical := Sparse.nil_wf
  validCanonical := Sparse.nil_wf
  imemCanonical := single_imem_wf w
  presentInside _ h := single_present h
  bounds := .inr ⟨(by decide : (0 : Int) ≤ five.toInt), le_refl _, (by decide : five.toInt ≤ 255), rfl, rfl⟩
  ipRange := (by decide : (0#9).toNat ≤ 256)
  idle _ := rfl
  running h := by cases h
  halted h := by cases h
  faulted h := by cases h
  faultFree _ := ⟨rfl, rfl⟩
  countersFit := ⟨Nat.two_pow_pos 32, Nat.two_pow_pos 32, Nat.two_pow_pos 32, Nat.two_pow_pos 32⟩
  untouched _ _ := rfl
  identifierMode _ _ h := by cases h
  rejectMode h := by cases h
  accounts h := by cases h

/-- A block with nothing loaded, under another configuration, meets it. -/
theorem witness_inv_empty : (State.resetWith (regMode .reject)).Inv where
  cacheCanonical := Sparse.nil_wf
  validCanonical := Sparse.nil_wf
  imemCanonical := Sparse.nil_wf
  presentInside _ h := by cases h
  bounds := .inl ⟨by decide, by decide⟩
  ipRange := by decide
  idle _ := rfl
  running h := by cases h
  halted h := by cases h
  faulted h := by cases h
  faultFree _ := ⟨rfl, rfl⟩
  countersFit := ⟨Nat.two_pow_pos 32, Nat.two_pow_pos 32, Nat.two_pow_pos 32, Nat.two_pow_pos 32⟩
  untouched _ _ := rfl
  identifierMode h := by cases h
  rejectMode _ _ _ h := by cases h
  accounts h := by cases h

/-- DecodeAndEncodeAgree: a word that decodes. -/
theorem witness_decodes : ∃ w i, decode w = .ok i := ⟨0x060F00#24, .je 0x0F#8, by decide⟩

/-- DecodeReportsFirstFault: each clause at a boundary. -/
theorem witness_decode_clauses :
    7 < (0x08#8).toNat ∧ ((0x05#8).toNat ≤ 5 ∧ 5 < (0x06#8).toNat) ∧
    ((0x05#8).toNat ∈ [1, 3, 4, 5] ∧ (0x05#8).toNat ≤ 5 ∧ 5 < (0x06#8).toNat) ∧
    ((0x06#8).toNat ∈ [6, 7] ∧ 0x01#8 ≠ 0x00#8) ∧ ((0x02#8).toNat ∈ [0, 2] ∧ (0x05#8).toNat ≤ 5) ∧
    ((0x01#8).toNat ∈ [1, 3, 4, 5] ∧ (0x05#8).toNat ≤ 5 ∧ (0x05#8).toNat ≤ 5) ∧
    ((0x07#8).toNat ∈ [6, 7] ∧ 0x00#8 = 0x00#8) := by decide

/-- LegalWordCounts: a running block at a present slot whose word does not decode. -/
theorem witness_undecodable : (single 0x080000#24).runState = .running ∧
    (slotAt (single 0x080000#24) (single 0x080000#24).ip.toNat).present = true ∧
    ∀ i, decode (slotAt (single 0x080000#24) (single 0x080000#24).ip.toNat).word ≠ .ok i :=
  ⟨rfl, rfl, fun _ h => by cases h⟩

/-- MovLoadsImmediate, AddRegisterWraps, AddImmediateWraps, CmpSetsEqualityFlag, LdLoadsCacheByte, StStoresRegisterByte: a
register field just out of range, either side. -/
theorem witness_bad_register : 5 < (0x06#8).toNat ∧ (5 < (0x06#8).toNat ∨ 5 < (0x05#8).toNat) ∧
    (5 < (0x05#8).toNat ∨ 5 < (0x06#8).toNat) := by decide

/-- AluComputesItsTable: the ends of the range of a subtracted constant. -/
theorem witness_alu_constant : (1 ≤ 1 ∧ 1 ≤ 128) ∧ (1 ≤ 128 ∧ 128 ≤ 128) := by decide

/-- JeFollowsTheFlag and JmpAlwaysJumps: a nonzero reserved field; not taken; taken just past EXIT, to ENTRY, to EXIT, to
its own address; into a gap and below ENTRY. -/
theorem witness_jump_clauses :
    0x01#8 ≠ 0x00#8 ∧ (at2 0#24).eq = false ∧ (setEq (at2 0#24) true).eq = true ∧
    (setEq (at2 0#24) true).exit.toInt < s8 0x0A#8 ∧
    ((at2 0#24).entry.toInt ≤ s8 0x00#8 ∧ presentAt (at2 0#24) (s8 0x00#8) = true) ∧
    ((at2 0#24).entry.toInt ≤ s8 0x09#8 ∧ s8 0x09#8 ≤ (at2 0#24).exit.toInt ∧
      presentAt (at2 0#24) (s8 0x09#8) = true) ∧
    (s8 0x02#8 = ((at2 0#24).ip.toNat : Int) ∧ s8 0x02#8 ≤ (at2 0#24).exit.toInt ∧
      (at2 0#24).entry.toInt ≤ s8 0x02#8 ∧ presentAt (at2 0#24) (s8 0x02#8) = true) ∧
    (s8 0x05#8 ≤ (at2 0#24).exit.toInt ∧ presentAt (at2 0#24) (s8 0x05#8) = false) ∧
    (s8 0xFF#8 ≤ (at2 0#24).exit.toInt ∧ s8 0xFF#8 < (at2 0#24).entry.toInt) := by decide

/-- TargetResolution: a rejected target, and a running block that meets the invariant with a target past EXIT, one
accepted inside, one negative, and one inside the bounds. -/
theorem witness_target_clauses :
    resolveTarget (at2 0#24) 0x05#8 = .error .jumpTargetInvalid ∧ (setEq (at2 0#24) true).eq = true ∧
    (single 0#24).Inv ∧ (single 0#24).runState = .running ∧
    resolveTarget (single 0#24) 0x06#8 = .ok 6#9 ∧ resolveTarget (single 0#24) 0x05#8 = .ok 5#9 ∧ s8 0xFF#8 < 0 ∧
    (single 0#24).entry.toInt ≤ s8 0x05#8 ∧ s8 0x05#8 ≤ (single 0#24).exit.toInt :=
  ⟨rfl, rfl, witness_inv_running _, rfl, rfl, rfl, by decide, by decide, by decide⟩

/-- CacheIndexFormation: each mode, and under Reject the values on both sides of 0 and at both ends. -/
theorem witness_index_clauses :
    (State.resetWith Config.default).config.addrMode = .identifier ∧
    ((State.resetWith (regMode .mask)).config.addrMode = .registerValue ∧
      (State.resetWith (regMode .mask)).config.indexPolicy = .mask) ∧
    ((State.resetWith (regMode .reject)).config.addrMode = .registerValue ∧
      (State.resetWith (regMode .reject)).config.indexPolicy = .reject) ∧
    s8 (getReg (withRegs (State.resetWith (regMode .reject)) 0xFF#8 0#8) 0) < 0 ∧
    s8 (getReg (withRegs (State.resetWith (regMode .reject)) 0x80#8 0#8) 0) < 0 ∧
    0 ≤ s8 (getReg (withRegs (State.resetWith (regMode .reject)) 0x00#8 0#8) 0) ∧
    0 ≤ s8 (getReg (withRegs (State.resetWith (regMode .reject)) 0x7F#8 0#8) 0) := by decide

/-- CacheIndexFormation: a load into another register than its base, and a store, that answer. -/
theorem witness_index_base : ∃ t u, (0 : Reg) ≠ 1 ∧ exec (.ld 0 1) State.reset = .next t ∧
    exec (.st 1 0) State.reset = .next u := ⟨_, _, by decide, rfl, rfl⟩

/-- LdLoadsCacheByte, StStoresRegisterByte: an index formed on a miss, on a hit, and in RegisterValue mode at 255. -/
theorem witness_index_formed :
    (formIndex State.reset 5 = .ok 5 ∧ validAt State.reset 5 = false) ∧
    (formIndex (touch State.reset 5) 5 = .ok 5 ∧ validAt (touch State.reset 5) 5 = true) ∧
    formIndex (withRegs (State.resetWith (regMode .mask)) 0xFF#8 0#8) 0 = .ok 255 := ⟨⟨rfl, rfl⟩, ⟨rfl, rfl⟩, rfl⟩

/-- CacheAccessPrimitives: another index. -/
theorem witness_other_index : (0 : CacheIndex) ≠ 255 := by decide

/-- LoadAfterStoreReadsTheStoredByte: a store through a formed index. -/
theorem witness_store_then_load : ∃ t, formIndex State.reset 2 = .ok 2 ∧ exec (.st 2 0) State.reset = .next t :=
  ⟨_, rfl, rfl⟩

/-- RepeatedLoadReadsTheSameByteAndHits: two registers that form one index. -/
theorem witness_load_twice : ∃ t, formIndex (State.resetWith (regMode .mask)) 1 = .ok 0 ∧
    exec (.ld 3 1) (State.resetWith (regMode .mask)) = .next t ∧ formIndex t 2 = .ok 0 := ⟨_, rfl, rfl, rfl⟩

/-- FirstAccessMissesLaterAccessesHit: each clause. -/
theorem witness_first_access : HostOp.reset ∉ [HostOp.step, HostOp.start] ∧ validAt (touch State.reset 3) 3 = true ∧
    (∃ t, exec (.ld 0 3) State.reset = .next t ∧ validAt State.reset 3 = false) ∧ formIndex State.reset 3 = .ok 3 ∧
    ∃ d : Reg, Instr.ld 0 3 = .ld d 3 := ⟨by decide, rfl, ⟨_, rfl, rfl⟩, rfl, 0, rfl⟩

/-- IdentifierModeIgnoresRegisterValue: the mode and two registers. -/
theorem witness_identifier : State.reset.config.addrMode = .identifier ∧ (1 : Reg) ≠ 0 := by decide

/-- StepRunsDecodedInstruction: a running block at a word that decodes. -/
theorem witness_step_runs : (single 0x070500#24).runState = .running ∧
    (slotAt (single 0x070500#24) (single 0x070500#24).ip.toNat).present = true ∧
    decode (slotAt (single 0x070500#24) (single 0x070500#24).ip.toNat).word = .ok (.jmp 0x05#8) := by decide

/-- StepOnlyActsWhileRunning: a block that is not RUNNING, and one that is. -/
theorem witness_run_states : State.reset.runState ≠ .running ∧ (single 0#24).runState = .running := by decide

/-- CompletedStepCountsItsCost: a completed step, under the invariant, that halts by falling through; one that halts by a
jump; and a step that faults. -/
theorem witness_completed :
    (completedBy (single 0x000005#24) = some ⟨.mov 0 0x05#8, false⟩ ∧ (single 0x000005#24).Inv ∧
      (hostStep (single 0x000005#24)).runState = .halted) ∧
    (completedBy (single 0x070600#24) = some ⟨.jmp 0x06#8, false⟩ ∧ (single 0x070600#24).Inv ∧
      (hostStep (single 0x070600#24)).runState = .halted) ∧
    ((single 0x070400#24).runState = .running ∧ (∃ t, step (single 0x070400#24) = .next t ∧ t.runState = .faulted)) :=
  ⟨⟨by decide, witness_inv_running _, by decide⟩, ⟨by decide, witness_inv_running _, by decide⟩,
    rfl, ⟨_, rfl, rfl⟩⟩

/-- FaultConditionsAndPriority: an absent slot; and present ones whose words meet each clause at a boundary. -/
theorem witness_fault_clauses :
    ((slotAt (block Config.default [(0, 0#24), (2, 0#24)] 0 2 1) 1).present = false ∧
      (slotAt (block Config.default [(0, 0#24), (2, 0#24)] 0 2 1) 1).word = 0x00#8 ++ 0x00#8 ++ 0x00#8) ∧
    ((single 0x080000#24).runState = .running ∧ (slotAt (single 0x080000#24) 5).present = true ∧
      (slotAt (single 0x080000#24) 5).word = 0x08#8 ++ 0x00#8 ++ 0x00#8 ∧ 7 < (0x08#8).toNat) ∧
    ((slotAt (single 0x050600#24) 5).word = 0x05#8 ++ 0x06#8 ++ 0x00#8 ∧ (0x05#8).toNat ≤ 5 ∧ 5 < (0x06#8).toNat) ∧
    ((slotAt (single 0x050506#24) 5).word = 0x05#8 ++ 0x05#8 ++ 0x06#8 ∧ (0x05#8).toNat ∈ [1, 3, 4, 5]) ∧
    ((slotAt (single 0x060501#24) 5).word = 0x06#8 ++ 0x05#8 ++ 0x01#8 ∧ 0x01#8 ≠ 0x00#8) ∧
    ((slotAt (single 0x070400#24) 5).word = 0x07#8 ++ 0x04#8 ++ 0x00#8 ∧ s8 0x04#8 ≤ (single 0x070400#24).exit.toInt ∧
      s8 0x04#8 < (single 0x070400#24).entry.toInt) ∧
    ((slotAt (setEq (single 0x060400#24) true) 5).word = 0x06#8 ++ 0x04#8 ++ 0x00#8 ∧
      (setEq (single 0x060400#24) true).eq = true) := by decide

/-- FaultConditionsAndPriority, the last clause: a load, and a store, through a negative register under Reject. -/
theorem witness_fault_index :
    (let s := withRegs (at0 (regMode .reject) 0x030001#24) 0#8 0xFF#8
     (slotAt s 0).word = 0x03#8 ++ 0x00#8 ++ 0x01#8 ∧ s.config.addrMode = .registerValue ∧
       s.config.indexPolicy = .reject ∧ s8 (getReg s 1) < 0) ∧
    (let s := withRegs (at0 (regMode .reject) 0x040100#24) 0#8 0x80#8
     (slotAt s 0).word = 0x04#8 ++ 0x01#8 ++ 0x00#8 ∧ s.config.addrMode = .registerValue ∧
       s.config.indexPolicy = .reject ∧ s8 (getReg s 1) < 0) := by decide

/-- FaultsArePrecise: a running block whose step faults. -/
theorem witness_faulting_step : ∃ t, (single 0x080000#24).runState = .running ∧
    step (single 0x080000#24) = .next t ∧ t.runState = .faulted := ⟨_, rfl, rfl, rfl⟩

/-- EndedRunIsLeftOnlyByReset: a halted run, a faulted one, and operations without Reset. -/
theorem witness_ended : (hostStep (single 0x000005#24)).runState = .halted ∧
    (hostStep (single 0x080000#24)).runState = .faulted ∧
    HostOp.reset ∉ [HostOp.load 0 0#24, HostOp.start, HostOp.step] := by decide

/-- NoInstructionWritesTheProgram: a step; a running block with a Load among its operations; an idle one with none. -/
theorem witness_program_kept : (∃ t, step (single 0x040000#24) = .next t) ∧
    (HostOp.reset ∉ [HostOp.load 0 0#24, HostOp.step] ∧ (single 0#24).runState ≠ .idle) ∧
    (HostOp.reset ∉ [HostOp.start] ∧ ∀ (a : SlotAddr) (w : InstrWord), HostOp.load a w ∉ [HostOp.start]) :=
  ⟨⟨_, rfl⟩, by decide, by decide, fun _ _ h => by simp at h⟩

/-- OnlyCmpWritesAndOnlyJeReadsTheFlag: an instruction that changes the flag, and one that is not JE. -/
theorem witness_flag : (∃ t, exec (.cmp 0 0) State.reset = .next t ∧ t.eq ≠ State.reset.eq) ∧
    ∃ t, (∀ f, Instr.ld 0 0 ≠ .je f) ∧ exec (.ld 0 0) State.reset = .next t :=
  ⟨⟨_, rfl, by decide⟩, _, fun _ h => (by cases h), rfl⟩

/-- ControlRecordGovernsExecution: instructions that complete in RUNNING and meet the clauses of the record. -/
theorem witness_control_clauses :
    (∃ t, (single 0#24).runState = .running ∧ exec (.add 0 1) (single 0#24) = .next t ∧ t.runState ≠ .faulted ∧
      (controlRecord (.add 0 1)).regWe = true ∧ (controlRecord (.add 0 1)).memWr = false) ∧
    (∃ t, exec (.ld 0 1) (single 0#24) = .next t ∧ t.runState ≠ .faulted ∧ (controlRecord (.ld 0 1)).memRd = true ∧
      (controlRecord (.ld 0 1)).flagWe = false ∧ (controlRecord (.ld 0 1)).branch = .none) ∧
    (∃ t, exec (.st 1 0) (single 0#24) = .next t ∧ t.runState ≠ .faulted ∧ (controlRecord (.st 1 0)).memWr = true ∧
      (controlRecord (.st 1 0)).regWe = false) ∧
    (∃ t, exec (.cmp 0 1) (single 0#24) = .next t ∧ t.runState ≠ .faulted ∧ (controlRecord (.cmp 0 1)).flagWe = true ∧
      (controlRecord (.cmp 0 1)).memRd = false ∧ (controlRecord (.cmp 0 1)).memWr = false) ∧
    (∃ t, exec (.je 0x05#8) (single 0#24) = .next t ∧ t.runState ≠ .faulted ∧
      (controlRecord (.je 0x05#8)).branch = .ifEq ∧ (single 0#24).eq = false) ∧
    (∃ t, exec (.je 0x05#8) (setEq (single 0#24) true) = .next t ∧ t.runState ≠ .faulted ∧
      (setEq (single 0#24) true).eq = true) ∧
    (∃ t, exec (.jmp 0x05#8) (single 0#24) = .next t ∧ t.runState ≠ .faulted ∧
      (controlRecord (.jmp 0x05#8)).branch = .always) :=
  ⟨⟨_, rfl, rfl, by decide, rfl, rfl⟩, ⟨_, rfl, by decide, rfl, rfl, rfl⟩, ⟨_, rfl, by decide, rfl, rfl⟩,
    ⟨_, rfl, by decide, rfl, rfl, rfl⟩, ⟨_, rfl, by decide, rfl, rfl⟩, ⟨_, rfl, by decide, rfl⟩,
    ⟨_, rfl, by decide, rfl⟩⟩

/-- LoadWritesSlotAndNarrowsBounds: an idle block and another; another slot than the one loaded. -/
theorem witness_load : State.reset.runState = .idle ∧ (single 0#24).runState ≠ .idle ∧ 1 ≠ (0 : SlotAddr).val := by
  decide

/-- StartBeginsAtEntry: an idle block with a program, one without, and one that is not idle. -/
theorem witness_start :
    ((singleIdle 0#24).Inv ∧ (singleIdle 0#24).runState = .idle ∧
      (singleIdle 0#24).entry.toInt ≤ (singleIdle 0#24).exit.toInt) ∧
    ((State.resetWith (regMode .reject)).Inv ∧ (State.resetWith (regMode .reject)).runState = .idle ∧
      (State.resetWith (regMode .reject)).exit.toInt < (State.resetWith (regMode .reject)).entry.toInt) ∧
    (single 0#24).runState ≠ .idle :=
  ⟨⟨witness_inv_idle _, rfl, by decide⟩, ⟨witness_inv_empty, rfl, by decide⟩, by decide⟩

/-- Input ports with every request, one, or none. -/
def pins (rst loadEn start step : Bool) (sel : BitVec 3) : PortIn :=
  ⟨rst, loadEn, 255#8, 0x070500#24, start, step, sel, 0#8, 0#8⟩

/-- PortsShowStateAndApplyRequests: selects on both sides of 5, and Load with Start in IDLE, at the last slot. -/
theorem witness_ports : 5 < (pins false false false false 6#3).obsRegSel.toNat ∧
    (pins false false false false 5#3).obsRegSel.toNat = (5 : Reg).val ∧
    State.reset.runState = .idle ∧ (pins false true true false 0#3).rst = false ∧
    (pins false true true false 0#3).loadEn = true ∧ (pins false true true false 0#3).start = true ∧
    (pins false true true false 0#3).step = false := by decide

/-- NoOperationChangesTheConfiguration: an instruction and a step that answer, under a configuration of its own. -/
theorem witness_configuration : ∃ t u, exec (.ld 0 1) (at0 (regMode .reject) 0x030001#24) = .next t ∧
    step (at0 (regMode .reject) 0x030001#24) = .next u := ⟨_, _, rfl, rfl⟩

/-- BootStartsAtLeastLoadedAddress: two words at distinct addresses, loaded in falling order. -/
theorem witness_boot : [((255 : SlotAddr), 0#24), (0, 0x070000#24)] ≠ [] ∧
    (([((255 : SlotAddr), 0#24), (0, 0x070000#24)] : List (SlotAddr × InstrWord)).map Prod.fst).Nodup ∧
    ∀ p ∈ ([(255, 0#24), (0, 0x070000#24)] : List (SlotAddr × InstrWord)), p.1.val ≠ 1 :=
  ⟨by simp, by simp, by simp⟩

/-- EveryStepKeepsTheInvariant, EveryHostOperationKeepsTheInvariant: a running block that meets it and steps on. -/
theorem witness_step_invariant : (single 0x070500#24).Inv ∧
    ∃ t, step (single 0x070500#24) = .next t ∧ t.runState = .running := ⟨witness_inv_running _, _, rfl, rfl⟩

/-- IpStaysInsideTheProgramWhileRunning: a completed step; a run from reset in RUNNING, and one in HALTED. -/
theorem witness_ip_states : completedBy (single 0x070500#24) = some ⟨.jmp 0x05#8, false⟩ ∧
    (applyOps (State.resetWith Config.default) [.load 5 0x070500#24, .start, .step]).runState = .running ∧
    (applyOps (State.resetWith Config.default) [.load 5 0x000005#24, .start, .step]).runState = .halted := by decide

/-- BoundsAreLeastAndGreatestPresentSlots: an idle block, a step, and reached blocks with a slot and with none. -/
theorem witness_bounds : State.reset.runState = .idle ∧ (∃ t, step (single 0#24) = .next t) ∧
    (slotAt (applyOps (State.resetWith Config.default) [.load 255 0#24]) (255 : SlotAddr).val).present = true ∧
    ∀ a : SlotAddr, (slotAt (applyOps (State.resetWith Config.default) [.start]) a.val).present = false :=
  ⟨rfl, ⟨_, rfl⟩, rfl, fun _ => rfl⟩

/-- ReachOfEachAddressMode: the first index out of reach in each mode, and the last within. -/
theorem witness_reach :
    (Config.default.addrMode = .identifier ∧ 5 < (6 : CacheIndex).val) ∧
    ((regMode .reject).addrMode = .registerValue ∧ (regMode .reject).indexPolicy = .reject ∧
      127 < (128 : CacheIndex).val) ∧
    (State.reset.config.addrMode = .identifier ∧ formIndex State.reset 5 = .ok 5) ∧
    ((State.resetWith (regMode .mask)).config.addrMode = .registerValue ∧
      (State.resetWith (regMode .mask)).config.indexPolicy = .mask) ∧ (127 : CacheIndex).val ≤ 127 :=
  ⟨⟨rfl, (by decide : 5 < 6)⟩, ⟨rfl, rfl, (by decide : 127 < 128)⟩, ⟨rfl, rfl⟩, ⟨rfl, rfl⟩, (le_refl 127 : 127 ≤ 127)⟩

/-- CanonicalMemoriesThatReadAlikeAreEqual: a data store in canonical form that lists a cell. -/
theorem witness_canonical : Memory.wf Config.default [(7, 0x01#8)] ∧
    ∀ idx : CacheIndex, Sparse.read (cacheUnlisted Config.default) [(7, 0x01#8)] idx.val =
      Sparse.read (cacheUnlisted Config.default) [(7, 0x01#8)] idx.val := by
  refine ⟨⟨by simp, fun e he => ?_⟩, fun _ => rfl⟩
  rw [List.mem_singleton] at he
  subst he
  decide

/-- CountersAccumulateWhatCompletes, AccumulatorLaws: a run from zeroed counters that completes one instruction and
wraps nothing, in Identifier mode with nothing touched. -/
theorem witness_counters : counterHolds (single 0x000005#24).config.counterWidth (single 0x000005#24).cycles ∧
    (single 0x000005#24).execCount = 0 ∧ (single 0x000005#24).cycles = 0 ∧ (single 0x000005#24).hits = 0 ∧
    (single 0x000005#24).ldst = 0 ∧ retiredIn 2 (single 0x000005#24) = [⟨.mov 0 0x05#8, false⟩] ∧
    counterHolds (single 0x000005#24).config.counterWidth ((retiredIn 2 (single 0x000005#24)).map Retired.cost).sum ∧
    (∀ r ∈ retiredIn 2 (single 0x000005#24), isMovAddInstr r.instr = true) ∧
    (single 0x000005#24).config.addrMode = .identifier ∧
    ∀ idx : CacheIndex, validAt (single 0x000005#24) idx = false :=
  have e : retiredIn 2 (single 0x000005#24) = [⟨.mov 0 0x05#8, false⟩] := by decide
  ⟨Nat.two_pow_pos 32, rfl, rfl, rfl, rfl, e, by rw [e]; exact (by decide : 1 < 2 ^ 32), by rw [e]; decide, rfl,
    fun _ => rfl⟩

/-- AssembledProgramsAreLegal: a text of one line. -/
theorem witness_assembled : assemble [['9', ' ', 'J', 'E', ' ', '8']] = some [(9, 0x060800#24)] := by decide

end Sys2Proof.Tests
end

section
/-! PROOFS. The configuration is the same after every operation of the block and of its host (00_scope.md R6). -/

namespace Sys2Proof.Machine

@[simp] theorem hostReset_config (s : State) : (hostReset s).config = s.config := resetWith_config s.config

@[simp] theorem hostLoad_config (a : SlotAddr) (w : InstrWord) (s : State) :
    (hostLoad a w s).config = s.config := by
  by_cases h : s.runState = .idle
  · rw [hostLoad_idle a w h, storeWord_config]
  · rw [hostLoad_ignored a w h]

@[simp] theorem hostStart_config (s : State) : (hostStart s).config = s.config := by
  unfold hostStart
  split <;> rfl

@[simp] theorem hostStep_config (s : State) : (hostStep s).config = s.config := (hostStep_sameProgram s).config

theorem applyOp_config (s : State) (op : HostOp) : (applyOp s op).config = s.config := by
  cases op with
  | reset => exact hostReset_config s
  | load a w => exact hostLoad_config a w s
  | start => exact hostStart_config s
  | step => exact hostStep_config s
  | observe q => rfl

theorem applyOps_config (s : State) (ops : List HostOp) : (applyOps s ops).config = s.config :=
  applyOps_induct (P := fun u => u.config = s.config) (fun u op _ hu => (applyOp_config u op).trans hu) s rfl

theorem exec_config {i : Instr} {s t : State} (h : exec i s = .next t) : t.config = s.config :=
  (ending_of_exec h).sameProgram.config

theorem step_config {s t : State} (h : step s = .next t) : t.config = s.config := by
  rw [← hostStep_eq h, hostStep_config]

/-- A presentation of the ports is the sequence of the operations it requests (R131, R132). -/
theorem portApply_config (p : PortIn) (s : State) : (portApply p s).config = s.config :=
  applyOps_config s (requestedOps p)

end Sys2Proof.Machine

namespace Sys2Proof

/-- Settles O50: an instruction and a step keep the whole program, Reset copies the configuration, and the sequences of
host operations and the ports follow by induction from one operation. -/
theorem noOperationChangesTheConfiguration : Obligations.NoOperationChangesTheConfiguration :=
  ⟨Machine.hostReset_config, fun _ _ _ => Machine.exec_config, fun _ _ => Machine.step_config,
    Machine.applyOps_config, Machine.portApply_config⟩

end Sys2Proof
end

section
/-! PROOFS. Every step keeps the invariant of the machine (Safety.lean). -/

namespace Sys2Proof.Machine

/-- In RUNNING the invariant keeps IP below 256, so the next address is in range (R15, R93). -/
theorem Inv_next_ip_range {s : State} (hi : s.Inv) (hr : s.runState = .running) :
    (s.ip + 1#9).toNat ≤ 256 ∧ s.entry.toInt ≤ ((s.ip + 1#9).toNat : Int) := by
  have hb := Inv_running_bounds hi hr
  rw [Inv_next_ip hi hr]
  omega

/-- An accepted target is not below ENTRY, so it is not negative and IP holds it (R106). -/
theorem Inv_target_range {s : State} (hi : s.Inv) (hr : s.runState = .running) {f : Byte} {p : Ip}
    (h : resolveTarget s f = .ok p) : p.toNat ≤ 256 ∧ s.entry.toInt ≤ (p.toNat : Int) := by
  have hb := Inv_running_bounds hi hr
  rcases resolveTarget_cases s f with ⟨hok, hf⟩ | ⟨herr, -⟩
  · rw [hok] at h
    cases h
    have hle : s.entry.toInt ≤ s8 f := by omega
    have hip := s8_ofNat_ip (b := f) (by omega)
    have hmax := (s8_range f).2
    omega
  · rw [herr] at h
    cases h

/-- A commit after writes of registers and the flag alone keeps the invariant. -/
theorem commit_inv_sameStore {s u : State} (hi : s.Inv) (hr : s.runState = .running)
    (hu : u = { s with x := u.x, eq := u.eq }) {p : Ip} (n : Nat)
    (hp : p.toNat ≤ 256 ∧ s.entry.toInt ≤ (p.toNat : Int)) : (commit u p n false false).Inv := by
  rw [hu]
  exact commit_inv (u := { s with x := u.x, eq := u.eq }) hi hr rfl hi.cacheCanonical hi.validCanonical hi.untouched
    hi.identifierMode hi.rejectMode n hp.1 hp.2 rfl

/-- A commit after an access through a formed index keeps the invariant: the index is one the configuration reaches, it
is counted once, and no other cell changes. -/
theorem commit_inv_touch {s u : State} (hi : s.Inv) (hr : s.runState = .running) {m : Reg} {idx : CacheIndex}
    (h : formIndex s m = .ok idx) (hu : u = { touch s idx with x := u.x, cache := u.cache })
    (hcache : Memory.wf s.config u.cache) (hother : SameCacheBut idx s u) (n : Nat) :
    (commit u (s.ip + 1#9) n (validAt s idx) true).Inv := by
  have hvalid : ∀ j, validAt u j = (decide (idx = j) || validAt s j) := by
    intro j; rw [← validAt_touch, hu]; rfl
  have htouched : ∀ j, validAt u j = true → idx = j ∨ validAt s j = true := by simp [hvalid]
  have hcount : touchedCount u = touchedCount (touch s idx) := by rw [hu]; rfl
  obtain ⟨hid, hrej⟩ := formIndex_reach h
  obtain ⟨hp1, hp2⟩ := Inv_next_ip_range hi hr
  refine commit_inv hi hr (by rw [hu]; rfl) hcache (by rw [hu]; exact touch_wf s idx hi.validCanonical) ?_ ?_ ?_ n
    hp1 hp2 (by rw [hcount]; exact touchedCount_touch s idx)
  · intro j hj
    simp only [hvalid, Bool.or_eq_false_iff, decide_eq_false_iff_not] at hj
    rw [hother j (Ne.symm hj.1)]
    exact hi.untouched j hj.2
  · intro hmode j hj
    rcases htouched j hj with rfl | hj
    · exact hid hmode
    · exact hi.identifierMode hmode j hj
  · intro hmode hpol j hj
    rcases htouched j hj with rfl | hj
    · exact hrej hmode hpol
    · exact hi.rejectMode hmode hpol j hj

/-- Every way an instruction ends keeps the invariant. -/
theorem Ending.inv {s t : State} (he : Ending s t) (hi : s.Inv) (hr : s.runState = .running) : t.Inv := by
  have hnext := Inv_next_ip_range hi hr
  cases he with
  | faults c hc => exact raiseFault_inv hi hr c hc
  | register r v n => exact commit_inv_sameStore hi hr rfl n hnext
  | flag b n => exact commit_inv_sameStore hi hr rfl n hnext
  | falls n => exact commit_inv_sameStore hi hr rfl n hnext
  | jumps f p h => exact commit_inv_sameStore hi hr rfl 1 (Inv_target_range hi hr h)
  | loads m r idx h =>
    exact commit_inv_touch (u := setReg (touch s idx) r (memRead s idx)) hi hr h rfl hi.cacheCanonical
      (fun _ _ => rfl) _
  | stores m r idx h =>
    refine commit_inv_touch (u := memWrite (touch s idx) idx (getReg s r)) hi hr h rfl
      (memWrite_wf s idx _ hi.cacheCanonical) (fun j hj => ?_) _
    rw [memRead_memWrite, if_neg hj.symm, memRead_touch]

theorem hostStep_inv {s : State} (hi : s.Inv) : (hostStep s).Inv := by
  rcases step_ending s with ⟨-, h⟩ | ⟨hr, t, h, he⟩ <;> rw [hostStep_eq h]
  · exact hi
  · exact he.inv hi hr

end Sys2Proof.Machine

namespace Sys2Proof

/-- Settles O40: a step is a fault, or a commit after writes that keep each part of the invariant, by the ways an
instruction can end. -/
theorem everyStepKeepsTheInvariant : Obligations.EveryStepKeepsTheInvariant :=
  fun _ _ hi h => Machine.hostStep_eq h ▸ Machine.hostStep_inv hi

end Sys2Proof
end

section
/-! PROOFS. The state after Reset (10_state.md R28, R29, R30), and that every operation of the host keeps the
invariant. -/

namespace Sys2Proof.Machine

@[simp] theorem getReg_resetWith (c : Config) (r : Reg) : getReg (State.resetWith c) r = 0x00#8 := by
  simp [getReg]

@[simp] theorem memRead_resetWith (c : Config) (idx : CacheIndex) :
    memRead (State.resetWith c) idx = cacheUnlisted c idx.val := rfl

@[simp] theorem validAt_resetWith (c : Config) (idx : CacheIndex) : validAt (State.resetWith c) idx = false := rfl

@[simp] theorem slotAt_resetWith (c : Config) (a : Nat) : slotAt (State.resetWith c) a = ⟨false, 0x000000#24⟩ := rfl

theorem counterHolds_zero (w : CounterWidth) : counterHolds w 0 := by
  cases w with
  | bits k => exact Nat.two_pow_pos k
  | unbounded => trivial

/-- Nothing is present, touched, counted or faulted after Reset, and the bounds are the sentinels. -/
theorem resetWith_inv (c : Config) : (State.resetWith c).Inv where
  cacheCanonical := Sparse.nil_wf
  validCanonical := Sparse.nil_wf
  imemCanonical := Sparse.nil_wf
  presentInside _ h := by simp at h
  bounds := .inl ⟨rfl, rfl⟩
  ipRange := Nat.zero_le _
  idle _ := rfl
  running h := by simp at h
  halted h := by simp at h
  faulted h := by simp at h
  faultFree _ := ⟨rfl, rfl⟩
  countersFit := ⟨counterHolds_zero _, counterHolds_zero _, counterHolds_zero _, counterHolds_zero _⟩
  untouched _ _ := rfl
  identifierMode _ _ h := by simp at h
  rejectMode _ _ _ h := by simp at h
  accounts _ := by simp [touchedCount_zero _ (validAt_resetWith c)]

/-- A slot stored is present, and no slot stops being present (R133). -/
theorem presentAt_storeWord {s : State} {a : SlotAddr} {w : InstrWord} {n : Int}
    (h : n = (a.val : Int) ∨ presentAt s n = true) : presentAt (storeWord s a w) n = true := by
  rcases h with rfl | h
  · exact presentAt_slot a (by simp [slotAt_storeWord])
  · obtain ⟨hn, hs⟩ := presentAt_eq_true h
    by_cases e : a.val = n.toNat <;> simp [presentAt, slotAt_storeWord, hn, hs, e]

/-- After a word is stored no present slot lies outside the bounds (R22). -/
theorem storeWord_presentInside {s : State} (hi : s.Inv) (a : SlotAddr) (w : InstrWord) (b : SlotAddr)
    (h : (slotAt (storeWord s a w) b.val).present = true) :
    (storeWord s a w).entry.toInt ≤ (b.val : Int) ∧ (b.val : Int) ≤ (storeWord s a w).exit.toInt := by
  rw [slotAt_storeWord] at h
  rw [storeWord_entry_toInt, storeWord_exit_toInt]
  by_cases e : a.val = b.val
  · omega
  · rw [if_neg e] at h
    have := hi.presentInside b h
    omega

/-- After a word is stored both bounds are present slots (R22). -/
theorem storeWord_bounds {s : State} (hi : s.Inv) (a : SlotAddr) (w : InstrWord) :
    0 ≤ (storeWord s a w).entry.toInt ∧ (storeWord s a w).entry.toInt ≤ (storeWord s a w).exit.toInt ∧
      (storeWord s a w).exit.toInt ≤ 255 ∧ presentAt (storeWord s a w) (storeWord s a w).entry.toInt = true ∧
      presentAt (storeWord s a w) (storeWord s a w).exit.toInt = true := by
  have ha := a.isLt
  rw [storeWord_entry_toInt, storeWord_exit_toInt]
  rcases hi.bounds with ⟨h1, h2⟩ | ⟨h0, h1, h2, hentry, hexit⟩
  · exact ⟨by omega, by omega, by omega, presentAt_storeWord (.inl (by omega)),
      presentAt_storeWord (.inl (by omega))⟩
  · refine ⟨by omega, by omega, by omega, presentAt_storeWord ?_, presentAt_storeWord ?_⟩
    · rcases min_choice s.entry.toInt (a.val : Int) with e | e <;> simp [e, hentry]
    · rcases max_choice s.exit.toInt (a.val : Int) with e | e <;> simp [e, hexit]

theorem storeWord_inv {s : State} (hi : s.Inv) (h : s.runState = .idle) (a : SlotAddr) (w : InstrWord) :
    (storeWord s a w).Inv where
  cacheCanonical := hi.cacheCanonical
  validCanonical := hi.validCanonical
  imemCanonical := storeWord_wf s a w hi.imemCanonical
  presentInside := storeWord_presentInside hi a w
  bounds := .inr (storeWord_bounds hi a w)
  ipRange := hi.ipRange
  idle _ := by
    have hs := hi.idle h
    rw [hs]; rfl
  running hr := by simp [h] at hr
  halted hr := by simp [h] at hr
  faulted hr := by simp [h] at hr
  faultFree := hi.faultFree
  countersFit := hi.countersFit
  untouched := hi.untouched
  identifierMode := hi.identifierMode
  rejectMode := hi.rejectMode
  accounts := hi.accounts

theorem hostLoad_inv {s : State} (hi : s.Inv) (a : SlotAddr) (w : InstrWord) : (hostLoad a w s).Inv := by
  by_cases h : s.runState = .idle
  · rw [hostLoad_idle a w h]
    exact storeWord_inv hi h a w
  · rwa [hostLoad_ignored a w h]

/-- ENTRY, the sentinel included, is a value of IP (R82). -/
theorem Inv_entry_toNat {s : State} (hi : s.Inv) :
    ((BitVec.ofInt 9 s.entry.toInt).toNat : Int) = s.entry.toInt ∧ s.entry.toInt ≤ 256 := by
  have hb : 0 ≤ s.entry.toInt ∧ s.entry.toInt ≤ 256 := by
    rcases hi.bounds with ⟨h, -⟩ | ⟨h0, h1, h2, -⟩ <;> omega
  rw [BitVec.toNat_ofInt]
  omega

theorem hostStart_idle {s : State} (h : s.runState = .idle) :
    hostStart s = { s with
      ip := BitVec.ofInt 9 s.entry.toInt
      runState := if s.entry.toInt ≤ s.exit.toInt then .running else .halted } := by
  simp [hostStart, h]

theorem hostStart_inv {s : State} (hi : s.Inv) : (hostStart s).Inv := by
  by_cases h : s.runState = .idle
  · obtain ⟨hip, hmax⟩ := Inv_entry_toNat hi
    rw [hostStart_idle h]
    exact {
      cacheCanonical := hi.cacheCanonical
      validCanonical := hi.validCanonical
      imemCanonical := hi.imemCanonical
      presentInside := hi.presentInside
      bounds := hi.bounds
      ipRange := by show (BitVec.ofInt 9 s.entry.toInt).toNat ≤ 256; omega
      idle := fun hr => by dsimp only at hr; split at hr <;> cases hr
      running := fun hr => by
        dsimp only at hr ⊢
        split at hr
        · omega
        · cases hr
      halted := fun hr => by
        dsimp only at hr ⊢
        split at hr
        · cases hr
        · omega
      faulted := fun hr => by dsimp only at hr; split at hr <;> cases hr
      faultFree := fun _ => hi.faultFree (by rw [h]; decide)
      countersFit := hi.countersFit
      untouched := hi.untouched
      identifierMode := hi.identifierMode
      rejectMode := hi.rejectMode
      accounts := hi.accounts }
  · rwa [hostStart_ignored h]

theorem applyOp_inv {s : State} (hi : s.Inv) (op : HostOp) : (applyOp s op).Inv := by
  cases op with
  | reset => exact resetWith_inv s.config
  | load a w => exact hostLoad_inv hi a w
  | start => exact hostStart_inv hi
  | step => exact hostStep_inv hi
  | observe q => exact hi

theorem applyOps_inv {s : State} (hi : s.Inv) (ops : List HostOp) : (applyOps s ops).Inv :=
  applyOps_induct (P := State.Inv) (fun _ op _ h => applyOp_inv h op) s hi

/-- The invariant of every state the host can bring the block into from reset. -/
theorem reachable_inv (c : Config) (ops : List HostOp) : (applyOps (State.resetWith c) ops).Inv :=
  applyOps_inv (resetWith_inv c) ops

end Sys2Proof.Machine

namespace Sys2Proof

open Machine

/-- Settles O39: each part of the invariant, of the state that holds nothing. -/
theorem resetMeetsTheInvariant : Obligations.ResetMeetsTheInvariant :=
  ⟨resetWith_inv Config.default, resetWith_inv⟩

/-- Settles O7: Reset answers `State.resetWith` of the configuration, field by field. -/
theorem resetGivesEveryItsValue : Obligations.ResetGivesEveryItsValue :=
  fun s => ⟨getReg_resetWith s.config, rfl, rfl, memRead_resetWith s.config, validAt_resetWith s.config,
    fun a => slotAt_resetWith s.config a.val, rfl, rfl, rfl, rfl, rfl, rfl, rfl, rfl, rfl, rfl, fun _ => rfl⟩

end Sys2Proof
end

section
/-! PROOFS. IP and the program bounds in every state the host can bring the block into (10_state.md R15, R22). -/

namespace Sys2Proof.Machine

/-- What is fetched and decoded is the word of the slot at IP (R83, R84). -/
theorem decode_of_fetchDecode {s : State} {i : Instr} (h : fetchDecode s = .ok i) :
    decode (slotAt s s.ip.toNat).word = .ok i := by
  cases hp : (slotAt s s.ip.toNat).present with
  | false => rw [fetchDecode_absent hp] at h; cases h
  | true =>
    cases hd : decode (slotAt s s.ip.toNat).word with
    | ok j => rw [fetchDecode_ok hp hd] at h; cases h; rfl
    | error f => rw [fetchDecode_undecodable hp hd] at h; cases h

theorem decode_of_completedBy {s : State} {r : Retired} (h : completedBy s = some r) :
    decode (slotAt s s.ip.toNat).word = .ok r.instr := by
  obtain ⟨-, i, t, hd, -, -, -, rfl⟩ := completedBy_eq_some h
  rw [retiredAs_instr]
  exact decode_of_fetchDecode hd

/-- A present slot given by its integer address. -/
theorem presentAt_exists_slot {s : State} {n : Int} (h : presentAt s n = true) (hn : n ≤ 255) :
    ∃ a : SlotAddr, n = (a.val : Int) ∧ (slotAt s a.val).present = true := by
  obtain ⟨h0, hs⟩ := presentAt_eq_true h
  exact ⟨⟨n.toNat, by omega⟩, (Int.toNat_of_nonneg h0).symm, hs⟩

/-- With a slot present the bounds are the least and the greatest present slot (R22). -/
theorem Inv_bounds_of_present {s : State} (hi : s.Inv) {a : SlotAddr} (ha : (slotAt s a.val).present = true) :
    ∃ lo hi : SlotAddr, s.entry.toInt = (lo.val : Int) ∧ s.exit.toInt = (hi.val : Int) ∧
      (slotAt s lo.val).present = true ∧ (slotAt s hi.val).present = true ∧
      ∀ b : SlotAddr, (slotAt s b.val).present = true → lo ≤ b ∧ b ≤ hi := by
  have hin := hi.presentInside
  rcases hi.bounds with ⟨hsent, -⟩ | ⟨-, hle, hmax, hentry, hexit⟩
  · have := hin a ha
    omega
  · obtain ⟨lo, hlo, plo⟩ := presentAt_exists_slot hentry (by omega)
    obtain ⟨up, hup, pup⟩ := presentAt_exists_slot hexit hmax
    refine ⟨lo, up, hlo, hup, plo, pup, fun b hb => ?_⟩
    have := hin b hb
    simp only [Fin.le_def]
    omega

/-- With no slot present the bounds are the sentinels (R22). -/
theorem Inv_bounds_of_absent {s : State} (hi : s.Inv) (h : ∀ a : SlotAddr, (slotAt s a.val).present = false) :
    s.entry.toInt = 256 ∧ s.exit.toInt = -1 := by
  rcases hi.bounds with hsent | ⟨-, hle, hmax, hentry, -⟩
  · exact hsent
  · obtain ⟨a, -, ha⟩ := presentAt_exists_slot hentry (by omega)
    rw [h a] at ha
    cases ha

theorem step_sameProgram {s t : State} (h : step s = .next t) : SameProgram s t :=
  hostStep_eq h ▸ hostStep_sameProgram s

end Sys2Proof.Machine

namespace Sys2Proof

open Machine

/-- Settles O42: the completed instruction by the fetch, the ranges of IP by the invariant of every reachable state. -/
theorem ipStaysInsideTheProgramWhileRunning : Obligations.IpStaysInsideTheProgramWhileRunning := by
  refine ⟨fun _ _ => decode_of_completedBy, fun c ops => ?_⟩
  have hi := reachable_inv c ops
  exact ⟨hi.ipRange, hi.running, hi.halted⟩

/-- Settles O43: the narrowing is that of storing a word, and what the bounds are follows from the invariant of every
reachable state. -/
theorem boundsAreLeastAndGreatestPresentSlots : Obligations.BoundsAreLeastAndGreatestPresentSlots := by
  refine ⟨fun s a w h => ?_, fun s t h => ?_, ?_⟩
  · rw [hostLoad_idle a w h]
    exact ⟨storeWord_entry_toInt s a w, storeWord_exit_toInt s a w⟩
  · have hp := step_sameProgram h
    exact ⟨hp.entry, hp.exit⟩
  · rintro c ops s rfl
    have hi := reachable_inv c ops
    exact ⟨fun ⟨_, ha⟩ => Inv_bounds_of_present hi ha, Inv_bounds_of_absent hi⟩

end Sys2Proof
end

section
/-! PROOFS. EQ: what writes it and what reads it (10_state.md R17). -/

namespace Sys2Proof.Machine

/-- A jump neither writes the flag nor reads it. -/
theorem exec_jmp_setEq (f : Byte) (s : State) (b : Bool) :
    ∃ t, exec (.jmp f) s = .next t ∧ exec (.jmp f) (setEq s b) = .next (setEq t b) ∧ t.eq = s.eq := by
  have hsame : resolveTarget (setEq s b) f = resolveTarget s f := rfl
  cases h : resolveTarget s f with
  | ok p => exact ⟨_, exec_jmp_ok h, exec_jmp_ok (hsame.trans h), rfl⟩
  | error c => exact ⟨_, exec_jmp_error h, exec_jmp_error (hsame.trans h), rfl⟩

/-- An instruction other than CMP and JE neither writes the flag nor reads it. -/
theorem exec_setEq {i : Instr} (hcmp : ∀ d r, i ≠ .cmp d r) (hje : ∀ f, i ≠ .je f) (s : State) (b : Bool) :
    ∃ t, exec i s = .next t ∧ exec i (setEq s b) = .next (setEq t b) ∧ t.eq = s.eq := by
  have hsame : ∀ m, formIndex (setEq s b) m = formIndex s m := fun _ => formIndex_congr rfl rfl
  cases i with
  | mov d imm => exact ⟨_, exec_mov d imm s, rfl, rfl⟩
  | add d r => exact ⟨_, exec_add d r s, rfl, rfl⟩
  | addi d imm => exact ⟨_, exec_addi d imm s, rfl, rfl⟩
  | cmp d r => exact absurd rfl (hcmp d r)
  | je f => exact absurd rfl (hje f)
  | jmp f => exact exec_jmp_setEq f s b
  | ld d m =>
    cases h : formIndex s m with
    | ok idx => exact ⟨_, exec_ld_ok d h, exec_ld_ok d ((hsame m).trans h), rfl⟩
    | error c => exact ⟨_, exec_ld_error d h, exec_ld_error d ((hsame m).trans h), rfl⟩
  | st m r =>
    cases h : formIndex s m with
    | ok idx => exact ⟨_, exec_st_ok r h, exec_st_ok r ((hsame m).trans h), rfl⟩
    | error c => exact ⟨_, exec_st_error r h, exec_st_error r ((hsame m).trans h), rfl⟩

/-- JE keeps the flag. -/
theorem exec_je_eq {f : Byte} {s t : State} (h : exec (.je f) s = .next t) : t.eq = s.eq := by
  cases he : s.eq with
  | false =>
    rw [exec_je_clear f s he] at h
    cases h
    exact he
  | true =>
    obtain ⟨u, hu, -, hkeep⟩ := exec_jmp_setEq f s true
    rw [exec_je_set f s he, hu] at h
    cases h
    exact hkeep.trans he

/-- CMP does not read the flag it writes. -/
theorem exec_cmp_setEq (d r : Reg) (s : State) (b : Bool) : exec (.cmp d r) (setEq s b) = exec (.cmp d r) s := rfl

/-- An instruction that is not CMP keeps the flag. -/
theorem exec_eq_of_ne_cmp {i : Instr} {s t : State} (hcmp : ∀ d r, i ≠ .cmp d r) (h : exec i s = .next t) :
    t.eq = s.eq := by
  by_cases hje : ∃ f, i = .je f
  · obtain ⟨f, rfl⟩ := hje
    exact exec_je_eq h
  · obtain ⟨u, hu, -, hkeep⟩ := exec_setEq hcmp (not_exists.mp hje) s s.eq
    rw [hu] at h
    cases h
    exact hkeep

end Sys2Proof.Machine

namespace Sys2Proof

open Machine

/-- Settles O32: CMP answers the same whatever the flag holds; every other instruction but JE answers the same up to the
flag, which it keeps. -/
theorem onlyCmpWritesAndOnlyJeReadsTheFlag : Obligations.OnlyCmpWritesAndOnlyJeReadsTheFlag := by
  refine ⟨fun i s t h hne => ?_, fun i s t b hje h => ?_, fun _ => rfl⟩
  · by_contra hcmp
    push Not at hcmp
    exact hne (exec_eq_of_ne_cmp hcmp h)
  · by_cases hcmp : ∃ d r, i = .cmp d r
    · obtain ⟨d, r, rfl⟩ := hcmp
      exact ⟨t, (exec_cmp_setEq d r s b).trans h, rfl, .inl rfl⟩
    · push Not at hcmp
      obtain ⟨t', ht, hb, hkeep⟩ := exec_setEq hcmp hje s b
      rw [ht] at h
      cases h
      exact ⟨setEq t b, hb, rfl, .inr ⟨rfl, hkeep⟩⟩

end Sys2Proof
end

section
/-! PROOFS. The bytes of an instruction word (20_memory.md R37). -/

namespace Sys2Proof

/-- Three bytes read opcode first are the word of their three fields (R37). -/
theorem wordOfBytes_bytesOfWord (w : InstrWord) (rest : List Byte) :
    wordOfBytes (bytesOfWord w ++ rest) = some (w, rest) := by
  show some (wordOfFields (fieldsOfWord w), rest) = some (w, rest)
  rw [wordOfFields_fieldsOfWord]

/-- Settles O6: the bytes are the three fields by definition, and the word is the three fields again. -/
theorem wordBytesOpcodeFirst : Obligations.WordBytesOpcodeFirst :=
  fun w rest => ⟨rfl, wordOfBytes_bytesOfWord w rest⟩

end Sys2Proof
end

section
/-! PROOFS. Accesses of the data store: the primitives (20_memory.md R39, R40, R41), what an instruction does to the
validity bitmap, and two accesses of one index (R42, R43, R49). -/

namespace Sys2Proof.Machine

@[simp] theorem memRead_memWrite_same (s : State) (idx : CacheIndex) (v : Byte) :
    memRead (memWrite s idx v) idx = v := by
  rw [memRead_memWrite, if_pos rfl]

theorem memRead_memWrite_other (s : State) {idx j : CacheIndex} (v : Byte) (h : j ≠ idx) :
    memRead (memWrite s idx v) j = memRead s j := by
  rw [memRead_memWrite, if_neg h.symm]

@[simp] theorem validAt_touch_same (s : State) (idx : CacheIndex) : validAt (touch s idx) idx = true := by
  simp [validAt_touch]

theorem validAt_touch_other (s : State) {idx j : CacheIndex} (h : j ≠ idx) :
    validAt (touch s idx) j = validAt s j := by
  simp [validAt_touch, h.symm]

/-- A load through an index touched before: its byte, its frame, and the cost of a hit. -/
theorem exec_ld_hit {s : State} {m : Reg} {idx : CacheIndex} (d : Reg) (h : formIndex s m = .ok idx)
    (hv : validAt s idx = true) :
    ∃ u, exec (.ld d m) s = .next u ∧ getReg u d = memRead s idx ∧ SameRegsBut d s u ∧ SameCache s u ∧
      Completed s u (s.ip + 1#9) 2 true true := by
  have hld := exec_ld_ok d h
  rw [hv] at hld
  exact ⟨_, hld, getReg_setReg_same _ d _, fun _ hr => getReg_setReg_other _ _ hr, fun _ => rfl,
    completed_commit _ _ _ _ rfl⟩

/-- A store through a formed index: its byte is in the cell, the index touched and still formed, every register kept. -/
theorem exec_st_stores {s t : State} {m r : Reg} {idx : CacheIndex} (h : formIndex s m = .ok idx)
    (hst : exec (.st m r) s = .next t) :
    formIndex t m = .ok idx ∧ validAt t idx = true ∧ memRead t idx = getReg s r ∧ SameRegs s t := by
  rw [exec_st_ok r h] at hst
  cases hst
  exact ⟨(formIndex_congr rfl rfl).trans h, validAt_touch_same s idx, memRead_memWrite_same (touch s idx) idx _,
    fun _ => rfl⟩

/-- The control record names a base register for LD and ST and for no other instruction (R67). -/
theorem controlRecord_rm {i : Instr} {m : Reg} :
    (controlRecord i).rm = some m ↔ (∃ d, i = .ld d m) ∨ ∃ r, i = .st m r := by
  cases i <;> simp [controlRecord]

/-- An LD or ST whose index is formed completes, touches that index and no other, and costs what its bit says (R42). -/
theorem exec_access {i : Instr} {s : State} {m : Reg} {idx : CacheIndex} (hm : (controlRecord i).rm = some m)
    (h : formIndex s m = .ok idx) :
    ∃ t, exec i s = .next t ∧ (∀ j, validAt t j = (decide (idx = j) || validAt s j)) ∧
      Completed s t (s.ip + 1#9) (accessCost (validAt s idx)) (validAt s idx) true := by
  rcases controlRecord_rm.mp hm with ⟨d, rfl⟩ | ⟨r, rfl⟩
  · exact ⟨_, exec_ld_ok d h, validAt_touch s idx, completed_commit _ _ _ _ rfl⟩
  · exact ⟨_, exec_st_ok r h, validAt_touch s idx, completed_commit _ _ _ _ rfl⟩

/-- An LD or ST whose index faults touches nothing, not even its VALID bit (R108). -/
theorem exec_access_error {i : Instr} {s : State} {m : Reg} {c : FaultCause} (hm : (controlRecord i).rm = some m)
    (h : formIndex s m = .error c) : exec i s = .next (raiseFault c s) := by
  rcases controlRecord_rm.mp hm with ⟨d, rfl⟩ | ⟨r, rfl⟩
  · exact exec_ld_error d h
  · exact exec_st_error r h

theorem exec_jmp_sameValid {f : Byte} {s t : State} (h : exec (.jmp f) s = .next t) : SameValid s t := by
  cases hf : resolveTarget s f with
  | ok p => rw [exec_jmp_ok hf] at h; cases h; exact fun _ => rfl
  | error c => rw [exec_jmp_error hf] at h; cases h; exact fun _ => rfl

/-- An instruction without a base register changes no VALID bit. -/
theorem exec_sameValid {i : Instr} {s t : State} (hm : (controlRecord i).rm = none) (h : exec i s = .next t) :
    SameValid s t := by
  cases i with
  | mov d imm => cases h; exact fun _ => rfl
  | add d r => cases h; exact fun _ => rfl
  | addi d imm => cases h; exact fun _ => rfl
  | cmp d r => cases h; exact fun _ => rfl
  | ld d m => cases hm
  | st m r => cases hm
  | jmp f => exact exec_jmp_sameValid h
  | je f =>
    cases he : s.eq with
    | false => rw [exec_je_clear f s he] at h; cases h; exact fun _ => rfl
    | true => rw [exec_je_set f s he] at h; exact exec_jmp_sameValid h

/-- A clear VALID bit is set exactly by an access through its index (R42). -/
theorem exec_validAt_iff {i : Instr} {s t : State} {idx : CacheIndex} (h : exec i s = .next t)
    (hv : validAt s idx = false) :
    validAt t idx = true ↔ ∃ m, formIndex s m = .ok idx ∧ (controlRecord i).rm = some m := by
  cases hm : (controlRecord i).rm with
  | none => simp [exec_sameValid hm h idx, hv]
  | some m =>
    cases hj : formIndex s m with
    | ok j =>
      obtain ⟨u, hu, hvalid, -⟩ := exec_access hm hj
      rw [hu] at h; cases h
      simp [hvalid, hv, hj]
    | error c =>
      rw [exec_access_error hm hj] at h; cases h
      simp [hv, hj]

/-- An instruction's ending takes no touch back. -/
theorem Ending.validAt_kept {s t : State} (he : Ending s t) {idx : CacheIndex} (h : validAt s idx = true) :
    validAt t idx = true := by
  cases he with
  | loads m r j hj => simp [validAt_touch, h]
  | stores m r j hj => simp [validAt_touch, h]
  | _ => exact h

/-- No host operation but Reset takes a touch back (R42). -/
theorem applyOp_validAt_kept {s : State} {op : HostOp} {idx : CacheIndex} (hop : op ≠ .reset)
    (h : validAt s idx = true) : validAt (applyOp s op) idx = true := by
  cases op with
  | reset => exact absurd rfl hop
  | load a w =>
    show validAt (hostLoad a w s) idx = true
    by_cases hr : s.runState = .idle
    · rw [hostLoad_idle a w hr, validAt_storeWord, h]
    · rw [hostLoad_ignored a w hr, h]
  | start =>
    show validAt (hostStart s) idx = true
    by_cases hr : s.runState = .idle
    · rw [hostStart_idle hr]; exact h
    · rw [hostStart_ignored hr, h]
  | step =>
    show validAt (hostStep s) idx = true
    rcases step_ending s with ⟨-, hs⟩ | ⟨-, t, hs, he⟩ <;> rw [hostStep_eq hs]
    · exact h
    · exact he.validAt_kept h
  | observe q => exact h

end Sys2Proof.Machine

namespace Sys2Proof

open Machine

/-- Settles O19: `classify` answers the bit and touches the index, `memWrite` writes the one cell, and each leaves the
other store alone. -/
theorem cacheAccessPrimitives : Obligations.CacheAccessPrimitives :=
  fun s idx _ v => ⟨rfl, validAt_touch_same s idx, validAt_touch_other s, memRead_touch s idx,
    memRead_memWrite_same s idx v, memRead_memWrite_other s v, validAt_memWrite s idx v⟩

/-- Settles O20: the ST leaves every register, so the LD forms the same index, which the ST has touched. -/
theorem loadAfterStoreReadsTheStoredByte : Obligations.LoadAfterStoreReadsTheStoredByte := by
  intro s t m r d idx hidx h
  obtain ⟨hidx', hv, hcell, hkept⟩ := exec_st_stores hidx h
  obtain ⟨u, hu, hbyte, hregs, -, hdone⟩ := exec_ld_hit d hidx' hv
  exact ⟨u, hu, hbyte.trans hcell, fun q hq => (hregs q hq).trans (hkept q), hdone⟩

/-- Settles O21: the first LD leaves the cell as it was and its index touched. -/
theorem repeatedLoadReadsTheSameByteAndHits : Obligations.RepeatedLoadReadsTheSameByteAndHits := by
  intro s t d d' m m' idx hidx h hidx'
  rw [exec_ld_ok d hidx] at h
  cases h
  obtain ⟨u, hu, hbyte, -, hcache, hdone⟩ := exec_ld_hit d' hidx' (validAt_touch_same s idx)
  exact ⟨u, hu, hbyte.trans (getReg_setReg_same _ d _).symm, hcache, hdone⟩

/-- Settles O22: a touch is kept by each host operation but Reset, and what an instruction touches is the index of its
base register, if it has one. -/
theorem firstAccessMissesLaterAccessesHit : Obligations.FirstAccessMissesLaterAccessesHit := by
  refine ⟨fun s => validAt_resetWith s.config, fun s ops idx hops => ?_, fun s t i idx h hv => ?_,
    fun s i m idx hidx hi => ?_⟩
  · exact applyOps_induct (P := fun u => validAt u idx = true)
      (fun u op hop => applyOp_validAt_kept (ne_of_mem_of_not_mem hop hops)) s
  · simp only [exec_validAt_iff h hv, controlRecord_rm]
  · obtain ⟨t, ht, -, hdone⟩ := exec_access (controlRecord_rm.mpr hi) hidx
    exact ⟨t, ht, hdone.cycles, hdone.hits⟩

end Sys2Proof
end

section
/-! PROOFS. What changes the instruction store: a Load in IDLE, and Reset (20_memory.md R52). -/

namespace Sys2Proof.Machine

theorem hostStart_sameProgram (s : State) : SameProgram s (hostStart s) := by
  by_cases h : s.runState = .idle
  · rw [hostStart_idle h]; exact ⟨rfl, fun _ => rfl, rfl, rfl⟩
  · rw [hostStart_ignored h]; exact .refl s

/-- A host operation that is neither Reset nor a Load in IDLE leaves the program as it is. -/
theorem applyOp_sameProgram {s : State} {op : HostOp} (hreset : op ≠ .reset)
    (h : s.runState ≠ .idle ∨ ∀ a w, op ≠ .load a w) : SameProgram s (applyOp s op) := by
  cases op with
  | reset => exact absurd rfl hreset
  | load a w =>
    have hr : s.runState ≠ .idle := h.resolve_right fun hl => hl a w rfl
    show SameProgram s (hostLoad a w s)
    rw [hostLoad_ignored a w hr]; exact .refl s
  | start => exact hostStart_sameProgram s
  | step => exact hostStep_sameProgram s
  | observe q => exact .refl s

/-- Only Reset leads back to IDLE (R23). -/
theorem applyOp_not_idle {s : State} {op : HostOp} (hreset : op ≠ .reset) (h : s.runState ≠ .idle) :
    (applyOp s op).runState ≠ .idle := by
  cases op with
  | reset => exact absurd rfl hreset
  | load a w => show (hostLoad a w s).runState ≠ .idle; rwa [hostLoad_ignored a w h]
  | start => show (hostStart s).runState ≠ .idle; rwa [hostStart_ignored h]
  | step => exact hostStep_not_idle h
  | observe q => exact h

/-- Where every Load is ignored, operations short of Reset leave the program as it is. -/
theorem applyOps_sameProgram_of_not_idle {s : State} {ops : List HostOp} (hreset : HostOp.reset ∉ ops)
    (h : s.runState ≠ .idle) : SameProgram s (applyOps s ops) :=
  (applyOps_induct (P := fun u => u.runState ≠ .idle ∧ SameProgram s u) (fun _ _ hop ⟨hu, hsame⟩ =>
    have hne := ne_of_mem_of_not_mem hop hreset
    ⟨applyOp_not_idle hne hu, hsame.trans (applyOp_sameProgram hne (.inl hu))⟩) s ⟨h, .refl s⟩).2

/-- Operations with no Reset and no Load among them leave the program as it is. -/
theorem applyOps_sameProgram_of_no_load {s : State} {ops : List HostOp} (hreset : HostOp.reset ∉ ops)
    (h : ∀ a w, HostOp.load a w ∉ ops) : SameProgram s (applyOps s ops) :=
  applyOps_induct (P := SameProgram s) (fun _ _ hop hsame =>
    hsame.trans (applyOp_sameProgram (ne_of_mem_of_not_mem hop hreset)
      (.inr fun a w => ne_of_mem_of_not_mem hop (h a w)))) s (.refl s)

end Sys2Proof.Machine

namespace Sys2Proof

open Machine

/-- Settles O31: a step keeps the program, and so does each operation of a sequence whose Loads, if any, are all
ignored. -/
theorem noInstructionWritesTheProgram : Obligations.NoInstructionWritesTheProgram :=
  ⟨fun _ _ => step_sameProgram, fun _ _ hreset h =>
    h.elim (applyOps_sameProgram_of_not_idle hreset) (applyOps_sameProgram_of_no_load hreset)⟩

end Sys2Proof
end

section
/-! PROOFS. The cells each addressing mode can reach (20_memory.md R35). -/

namespace Sys2Proof.Machine

/-- An index the configuration cannot form has not been touched (R35). -/
theorem Inv_unreachable_untouched {s : State} (hi : s.Inv) {idx : CacheIndex}
    (h : (s.config.addrMode = .identifier ∧ 5 < idx.val) ∨
      (s.config.addrMode = .registerValue ∧ s.config.indexPolicy = .reject ∧ 127 < idx.val)) :
    validAt s idx = false := by
  by_contra hv
  rw [Bool.not_eq_false] at hv
  rcases h with ⟨hmode, hlt⟩ | ⟨hmode, hpolicy, hlt⟩
  · have := hi.identifierMode hmode idx hv
    omega
  · have := hi.rejectMode hmode hpolicy idx hv
    omega

/-- A byte of at most 127 is not negative. -/
theorem s8_nonneg_of_le {b : Byte} (h : b.toNat ≤ 127) : 0 ≤ s8 b := by
  rw [s8_eq_toInt, BitVec.toInt_eq_toNat_of_lt (by omega)]
  omega

/-- In RegisterValue mode a value the policy accepts is itself the index (R107). -/
theorem formIndex_registerValue {s : State} {m : Reg} {idx : CacheIndex}
    (hmode : s.config.addrMode = .registerValue) (hval : (getReg s m).toNat = idx.val)
    (haccept : s.config.indexPolicy = .mask ∨ 0 ≤ s8 (getReg s m)) : formIndex s m = .ok idx := by
  rcases formIndex_cases s m with ⟨hid, -⟩ | ⟨-, -, j, hj, hjval⟩ | ⟨-, hreject, hneg, -⟩ |
    ⟨-, -, -, j, hj, hjval⟩
  · rw [hmode] at hid; cases hid
  · rw [hj, Fin.ext (hjval.trans hval)]
  · rcases haccept with hmask | hnonneg
    · rw [hreject] at hmask; cases hmask
    · omega
  · rw [hj, Fin.ext (hjval.trans hval)]

/-- The register value that forms an index in RegisterValue mode. -/
theorem getReg_setReg_index_toNat (s : State) (m : Reg) (idx : CacheIndex) :
    (getReg (setReg s m (BitVec.ofNat 8 idx.val)) m).toNat = idx.val := by
  rw [getReg_setReg_same, BitVec.toNat_ofNat]
  exact Nat.mod_eq_of_lt idx.isLt

end Sys2Proof.Machine

namespace Sys2Proof

open Machine

/-- Settles O44: the unreached cells by the invariant of every reachable state, and the indexes that are formed by the
cases of R107. -/
theorem reachOfEachAddressMode : Obligations.ReachOfEachAddressMode := by
  refine ⟨fun c ops idx h => ?_, fun s m idx hmode hidx => (formIndex_reach hidx).1 hmode,
    fun s m idx hmode hpolicy => ?_, fun s m idx hmode hpolicy hle => ?_⟩
  · have hi := reachable_inv c ops
    have hc : (applyOps (State.resetWith c) ops).config = c := applyOps_config (State.resetWith c) ops
    have hv : validAt (applyOps (State.resetWith c) ops) idx = false :=
      Inv_unreachable_untouched hi (by rwa [hc])
    have hcell := hi.untouched idx hv
    rw [hc] at hcell
    exact ⟨hcell, hv⟩
  · exact formIndex_registerValue hmode (getReg_setReg_index_toNat s m idx) (.inl hpolicy)
  · have hval := getReg_setReg_index_toNat s m idx
    exact formIndex_registerValue hmode hval (.inr (s8_nonneg_of_le (by omega)))

end Sys2Proof
end

section
/-! PROOFS. The canonical form of the sparse arrays is one form (log 2; 20_memory.md R34). -/

namespace Sys2Proof.Machine

/-- An index that does not read as unlisted is listed. -/
theorem Sparse.mem_of_read {α : Type} {unlisted : Nat → α} {l : List (Nat × α)} {e : Nat × α}
    (h : Sparse.read unlisted l e.1 = e.2) (hne : e.2 ≠ unlisted e.1) : e ∈ l := by
  induction l with
  | nil => exact absurd h.symm hne
  | cons f l ih =>
    obtain ⟨k, v⟩ := f
    rw [Sparse.read_cons] at h
    by_cases hk : k = e.1
    · rw [if_pos hk] at h
      exact List.mem_cons.mpr (.inl (Prod.ext hk.symm h.symm))
    · rw [if_neg hk] at h
      exact List.mem_cons_of_mem _ (ih h)

/-- A list in canonical form lists exactly the indexes inside the array that do not read as unlisted. -/
theorem Sparse.mem_iff_read {α : Type} {unlisted : Nat → α} {l : List (Nat × α)} (h : Sparse.wf unlisted l)
    (e : Nat × α) : e ∈ l ↔ e.1 < 256 ∧ Sparse.read unlisted l e.1 = e.2 ∧ e.2 ≠ unlisted e.1 :=
  ⟨fun he => ⟨(h.2 e he).1, Sparse.read_mem h he, (h.2 e he).2⟩, fun ⟨_, hr, hne⟩ => Sparse.mem_of_read hr hne⟩

/-- Lists in canonical form that read alike inside the array are the same list. -/
theorem Sparse.eq_of_read_eq {α : Type} {unlisted : Nat → α} {l l' : List (Nat × α)} (h : Sparse.wf unlisted l)
    (h' : Sparse.wf unlisted l')
    (hread : ∀ a < 256, Sparse.read unlisted l a = Sparse.read unlisted l' a) : l = l' := by
  have hirrefl : Std.Irrefl fun e f : Nat × α => e.1 < f.1 := ⟨fun e => lt_irrefl e.1⟩
  have hantisymm : Std.Antisymm fun e f : Nat × α => e.1 < f.1 := ⟨fun _ _ hef hfe => absurd hef hfe.asymm⟩
  have hmem : ∀ e, e ∈ l ↔ e ∈ l' := fun e => by
    rw [Sparse.mem_iff_read h, Sparse.mem_iff_read h']
    exact and_congr_right fun he => by rw [hread e.1 he]
  exact h.1.eq_of_mem_iff h'.1 hmem

end Sys2Proof.Machine

namespace Sys2Proof

open Machine

/-- Settles O45: a list in canonical form lists what does not read as unlisted, in rising order. -/
theorem canonicalMemoriesThatReadAlikeAreEqual : Obligations.CanonicalMemoriesThatReadAlikeAreEqual :=
  fun _ _ _ hm hn hread => Sparse.eq_of_read_eq hm hn fun a ha => hread ⟨a, ha⟩

end Sys2Proof
end

section
/-! PROOFS. Decoding and encoding undo each other, and the words that decode are the encoded instructions
(30_encoding.md R61 to R69). -/

namespace Sys2Proof

theorem encodeReg_injective : Function.Injective encodeReg := fun a b h => by
  rw [← Fin.val_inj, ← encodeReg_toNat a, h, encodeReg_toNat]

/-- A decoder that begins with a register field succeeds exactly when the field is a register's (R62). -/
theorem decodeReg_bind_ok {f : Byte} {k : Reg → Except DecodeFault Instr} {i : Instr} :
    (decodeReg f >>= k) = .ok i ↔ ∃ r, encodeReg r = f ∧ k r = .ok i := by
  cases h : decodeReg f with
  | ok r =>
    obtain rfl := decodeReg_ok.mp h
    constructor
    · exact fun hk => ⟨r, rfl, hk⟩
    · rintro ⟨q, hq, hk⟩
      rwa [encodeReg_injective hq] at hk
  | error e =>
    constructor
    · intro hk; cases hk
    · rintro ⟨r, rfl, -⟩
      rw [decodeReg_encodeReg] at h; cases h

/-- A decoder that begins with a reserved field succeeds exactly when the field is 0x00 (R64). -/
theorem decodeReserved_bind_ok {f : Byte} {k : Unit → Except DecodeFault Instr} {i : Instr} :
    (decodeReserved f >>= k) = .ok i ↔ 0x00#8 = f ∧ k () = .ok i := by
  by_cases h : f = 0x00#8
  · subst h
    exact (and_iff_right rfl).symm
  · rw [decodeReserved_error h]
    exact ⟨fun hk => (by cases hk), fun ⟨hf, _⟩ => absurd hf.symm h⟩

theorem decodeFields_encodeFields (i : Instr) : decodeFields (encodeFields i) = .ok i := by
  cases i with
  | mov d imm | addi d imm => exact decodeReg_bind_ok.mpr ⟨d, rfl, rfl⟩
  | add r q | ld r q | st r q | cmp r q =>
    exact decodeReg_bind_ok.mpr ⟨r, rfl, decodeReg_bind_ok.mpr ⟨q, rfl, rfl⟩⟩
  | je t | jmp t => exact decodeReserved_bind_ok.mpr ⟨rfl, rfl⟩

theorem Fields.eq_of_opcode_toNat {f g : Fields} (h : f.op.toNat = g.op.toNat) (h0 : f.op0 = g.op0)
    (h1 : f.op1 = g.op1) : f = g := by
  cases f; cases g
  obtain rfl := BitVec.eq_of_toNat_eq h
  cases h0; cases h1; rfl

/-- A record that decodes is the one its instruction encodes to (R69). -/
theorem encodeFields_of_decodeFields {f : Fields} {i : Instr} (h : decodeFields f = .ok i) :
    encodeFields i = f := by
  unfold decodeFields at h
  split at h
  case h_1 hop | h_3 hop =>
    obtain ⟨d, h0, hi⟩ := decodeReg_bind_ok.mp h
    cases hi
    exact Fields.eq_of_opcode_toNat hop.symm h0 rfl
  case h_2 hop | h_4 hop | h_5 hop | h_6 hop =>
    obtain ⟨r, h0, hrest⟩ := decodeReg_bind_ok.mp h
    obtain ⟨q, h1, hi⟩ := decodeReg_bind_ok.mp hrest
    cases hi
    exact Fields.eq_of_opcode_toNat hop.symm h0 h1
  case h_7 hop | h_8 hop =>
    obtain ⟨h1, hi⟩ := decodeReserved_bind_ok.mp h
    cases hi
    exact Fields.eq_of_opcode_toNat hop.symm rfl h1
  case h_9 => cases h

theorem decode_encode (i : Instr) : decode (encode i) = .ok i := by
  rw [decode, fieldsOfWord_encode, decodeFields_encodeFields]

theorem encode_of_decode {w : InstrWord} {i : Instr} (h : decode w = .ok i) : encode i = w := by
  rw [encode, encodeFields_of_decodeFields h, wordOfFields_fieldsOfWord]

theorem decode_eq_ok_iff {w : InstrWord} {i : Instr} : decode w = .ok i ↔ encode i = w :=
  ⟨encode_of_decode, fun h => h ▸ decode_encode i⟩

theorem encode_injective : Function.Injective encode := fun _ _ h =>
  Except.ok.inj ((decode_encode _).symm.trans (decode_eq_ok_iff.mpr h.symm))

/-- Settles O1: the encoder's table is its definition, and a record decodes to an instruction exactly when it is that
instruction's fields. -/
theorem decodeAndEncodeAgree : Obligations.DecodeAndEncodeAgree :=
  ⟨fun _ _ => rfl, fun _ _ => rfl, fun _ _ => rfl, fun _ _ => rfl, fun _ _ => rfl, fun _ _ => rfl, fun _ => rfl,
    fun _ => rfl, decode_encode, fun _ _ => encode_of_decode⟩

end Sys2Proof
end

section
/-! PROOFS. Which words decode: those whose fields the table of roles admits, and the first fault of every other
(30_encoding.md R57, R62 to R65, R68). -/

namespace Sys2Proof

/-- The encoder writes legal records only (R69). -/
theorem encodeFields_wellFormed (i : Instr) : (encodeFields i).wellFormed = true := by
  cases i with
  | mov d imm => exact Laws.EncodesLegally.mov d imm
  | add d s => exact Laws.EncodesLegally.add d s
  | addi d imm => exact Laws.EncodesLegally.addi d imm
  | ld d m => exact Laws.EncodesLegally.ld d m
  | st m s => exact Laws.EncodesLegally.st m s
  | cmp d s => exact Laws.EncodesLegally.cmp d s
  | je t => exact Laws.EncodesLegally.je t
  | jmp t => exact Laws.EncodesLegally.jmp t

theorem exists_encodeReg {f : Byte} (h : f.toNat ≤ 5) : ∃ r, encodeReg r = f := by
  obtain ⟨r, hr, -⟩ := decodeReg_legal h
  exact ⟨r, (decodeReg_ok.mp hr).symm⟩

/-- MOV and ADD-immediate: a register and any byte. -/
theorem exists_encodeFields_immediate {f : Fields} (hop : f.op.toNat ∈ [0, 2]) (h0 : f.op0.toNat ≤ 5) :
    ∃ i, encodeFields i = f := by
  obtain ⟨d, hd⟩ := exists_encodeReg h0
  simp only [List.mem_cons, List.not_mem_nil, or_false] at hop
  rcases hop with hop | hop
  · exact ⟨.mov d f.op1, Fields.eq_of_opcode_toNat hop.symm hd rfl⟩
  · exact ⟨.addi d f.op1, Fields.eq_of_opcode_toNat hop.symm hd rfl⟩

/-- ADD-register, LD, ST and CMP: two register numbers. -/
theorem exists_encodeFields_pair {f : Fields} (hop : f.op.toNat ∈ [1, 3, 4, 5]) (h0 : f.op0.toNat ≤ 5)
    (h1 : f.op1.toNat ≤ 5) : ∃ i, encodeFields i = f := by
  obtain ⟨r, hr⟩ := exists_encodeReg h0
  obtain ⟨q, hq⟩ := exists_encodeReg h1
  simp only [List.mem_cons, List.not_mem_nil, or_false] at hop
  rcases hop with hop | hop | hop | hop
  · exact ⟨.add r q, Fields.eq_of_opcode_toNat hop.symm hr hq⟩
  · exact ⟨.ld r q, Fields.eq_of_opcode_toNat hop.symm hr hq⟩
  · exact ⟨.st r q, Fields.eq_of_opcode_toNat hop.symm hr hq⟩
  · exact ⟨.cmp r q, Fields.eq_of_opcode_toNat hop.symm hr hq⟩

/-- JE and JMP: any target and a zero byte. -/
theorem exists_encodeFields_jump {f : Fields} (hop : f.op.toNat ∈ [6, 7]) (h1 : f.op1 = 0x00#8) :
    ∃ i, encodeFields i = f := by
  simp only [List.mem_cons, List.not_mem_nil, or_false] at hop
  rcases hop with hop | hop
  · exact ⟨.je f.op0, Fields.eq_of_opcode_toNat hop.symm rfl h1.symm⟩
  · exact ⟨.jmp f.op0, Fields.eq_of_opcode_toNat hop.symm rfl h1.symm⟩

/-- The table of roles read as the three shapes of a legal record (R57, R65). -/
theorem wellFormed_shapes {f : Fields} (h : f.wellFormed = true) :
    (f.op.toNat ∈ [0, 2] ∧ f.op0.toNat ≤ 5) ∨
    (f.op.toNat ∈ [1, 3, 4, 5] ∧ f.op0.toNat ≤ 5 ∧ f.op1.toNat ≤ 5) ∨
    (f.op.toNat ∈ [6, 7] ∧ f.op1 = 0x00#8) := by
  simp only [Fields.wellFormed, Fields.opcodeLegal, Fields.op0Legal, Fields.op1Legal] at h
  unfold fieldRoles at h
  split at h <;> simp_all [FieldRole.admits]

/-- Every legal record is the record of an instruction (R65). -/
theorem exists_encodeFields_of_wellFormed {f : Fields} (h : f.wellFormed = true) : ∃ i, encodeFields i = f := by
  rcases wellFormed_shapes h with ⟨hop, h0⟩ | ⟨hop, h0, h1⟩ | ⟨hop, h1⟩
  · exact exists_encodeFields_immediate hop h0
  · exact exists_encodeFields_pair hop h0 h1
  · exact exists_encodeFields_jump hop h1

/-- Settles O4: the words that decode are the encoded instructions, and so are the words whose record is legal. -/
theorem decodesExactlyLegalRecords : Obligations.DecodesExactlyLegalRecords := by
  refine fun w => ⟨fun ⟨i, h⟩ => ?_, fun h => ?_⟩
  · rw [← encode_of_decode h, fieldsOfWord_encode]
    exact encodeFields_wellFormed i
  · obtain ⟨i, hi⟩ := exists_encodeFields_of_wellFormed h
    exact ⟨i, decode_eq_ok_iff.mpr (by rw [encode, hi, wordOfFields_fieldsOfWord])⟩

theorem decode_illegal_opcode {op : Byte} (h : 7 < op.toNat) (op0 op1 : Byte) :
    decode (op ++ op0 ++ op1) = .error .illegalOpcode := by
  rw [decode_append]
  obtain ⟨k, hk⟩ : ∃ k, op.toNat = k + 8 := ⟨op.toNat - 8, by omega⟩
  simp only [decodeFields, hk]

/-- Every opcode with registers decodes its first field first (R68). -/
theorem decode_illegal_first_register {op op0 : Byte} (hop : op.toNat ≤ 5) (h : 5 < op0.toNat) (op1 : Byte) :
    decode (op ++ op0 ++ op1) = .error .illegalRegister := by
  rw [decode_append]
  have hop : op.toNat = 0 ∨ op.toNat = 1 ∨ op.toNat = 2 ∨ op.toNat = 3 ∨ op.toNat = 4 ∨ op.toNat = 5 := by omega
  rcases hop with hop | hop | hop | hop | hop | hop <;> simp only [decodeFields, hop, decodeReg_error h] <;> rfl

theorem decode_nonzero_reserved {op op1 : Byte} (hop : op.toNat ∈ [6, 7]) (h : op1 ≠ 0x00#8) (op0 : Byte) :
    decode (op ++ op0 ++ op1) = .error .reservedNonzero := by
  rw [decode_append]
  simp only [List.mem_cons, List.not_mem_nil, or_false] at hop
  rcases hop with hop | hop <;> simp only [decodeFields, hop, decodeReserved_error h] <;> rfl

/-- A word whose record an instruction encodes to decodes to that instruction. -/
theorem decode_of_exists_encodeFields {op op0 op1 : Byte} (h : ∃ i, encodeFields i = ⟨op, op0, op1⟩) :
    ∃ i, decode (op ++ op0 ++ op1) = .ok i ∧ encode i = op ++ op0 ++ op1 := by
  obtain ⟨i, hi⟩ := h
  have hw : encode i = op ++ op0 ++ op1 := by rw [encode, hi, wordOfFields]
  exact ⟨i, decode_eq_ok_iff.mpr hw, hw⟩

/-- Settles O2: a lemma for each fault, and the three shapes of a legal record. -/
theorem decodeReportsFirstFault : Obligations.DecodeReportsFirstFault := fun _ op0 op1 =>
  ⟨fun h => decode_illegal_opcode h op0 op1,
    fun hop h => decode_illegal_first_register hop h op1,
    fun hop _ h => decode_bad_register_pair (.inr h) _ hop,
    fun hop h => decode_nonzero_reserved hop h op0,
    fun hop h0 => decode_of_exists_encodeFields (exists_encodeFields_immediate hop h0),
    fun hop h0 h1 => decode_of_exists_encodeFields (exists_encodeFields_pair hop h0 h1),
    fun hop h1 => decode_of_exists_encodeFields (exists_encodeFields_jump hop h1)⟩

end Sys2Proof
end

section
/-! PROOFS. How many words decode, and what a step does with a word that does not (30_encoding.md R65). -/

namespace Sys2Proof

/-- How many bytes the role of a field admits (R59, R60, R62, R64). -/
def FieldRole.size (r : FieldRole) : Nat :=
  match r with
  | .register | .memoryId => 6
  | .immediate | .target  => 256
  | .reserved             => 1

theorem ncard_registerFields : {f : Byte | f.toNat ≤ 5}.ncard = 6 := by
  have hrange : {f : Byte | f.toNat ≤ 5} = Set.range encodeReg := by
    ext f
    refine ⟨exists_encodeReg, ?_⟩
    rintro ⟨r, rfl⟩
    show (encodeReg r).toNat ≤ 5
    rw [encodeReg_toNat]
    omega
  rw [hrange, Set.ncard_range_of_injective encodeReg_injective, Nat.card_fin]

theorem ncard_bytes : (Set.univ : Set Byte).ncard = 256 := by
  rw [Set.ncard_univ, Nat.card_congr BitVec.equivFin.toEquiv, Nat.card_fin]; rfl

theorem ncard_admits (r : FieldRole) : {f : Byte | r.admits f = true}.ncard = r.size := by
  cases r with
  | register | memoryId => simp only [FieldRole.admits, decide_eq_true_eq, ncard_registerFields, FieldRole.size]
  | immediate | target => simp only [FieldRole.admits, Set.ofPred_true, ncard_bytes, FieldRole.size]
  | reserved => simp only [FieldRole.admits, decide_eq_true_eq, Set.ofPred_eq_eq_singleton, Set.ncard_singleton,
      FieldRole.size]

/-- The legal words of an opcode: those that decode and whose top field is it. -/
def legalWords (k : Nat) : Set InstrWord := {w | (w.extractLsb' 16 8).toNat = k ∧ ∃ i, decode w = .ok i}

theorem wellFormed_iff_admits {f : Fields} {r q : FieldRole} (h : fieldRoles f.op = some (r, q)) :
    f.wellFormed = true ↔ r.admits f.op0 = true ∧ q.admits f.op1 = true := by
  simp [Fields.wellFormed, Fields.opcodeLegal, Fields.op0Legal, Fields.op1Legal, h]

theorem word_injective (op : Byte) : Function.Injective fun p : Byte × Byte => (op ++ p.1 ++ p.2 : InstrWord) := by
  rintro ⟨a, b⟩ ⟨a', b'⟩ h
  have h : fieldsOfWord (op ++ a ++ b) = fieldsOfWord (op ++ a' ++ b') := congrArg fieldsOfWord h
  rw [fieldsOfWord_append, fieldsOfWord_append] at h
  cases h; rfl

/-- The legal words of an opcode hold in each field a byte that the field's role admits (R57). -/
theorem legalWords_eq_image {op : Byte} {r q : FieldRole} (h : fieldRoles op = some (r, q)) :
    legalWords op.toNat = (fun p : Byte × Byte => (op ++ p.1 ++ p.2 : InstrWord)) ''
      ({f | r.admits f = true} ×ˢ {f | q.admits f = true}) := by
  ext w
  constructor
  · rintro ⟨hop, hdecodes⟩
    obtain rfl := BitVec.eq_of_toNat_eq hop
    exact ⟨(_, _), (wellFormed_iff_admits h).mp ((decodesExactlyLegalRecords w).mp hdecodes), append_fields w⟩
  · rintro ⟨⟨a, b⟩, hadmits, rfl⟩
    refine ⟨by rw [op_of_append], (decodesExactlyLegalRecords _).mpr ?_⟩
    rw [fieldsOfWord_append]
    exact (wellFormed_iff_admits h).mpr hadmits

theorem ncard_legalWords {op : Byte} {r q : FieldRole} (h : fieldRoles op = some (r, q)) :
    (legalWords op.toNat).ncard = r.size * q.size := by
  rw [legalWords_eq_image h, Set.ncard_image_of_injective _ (word_injective op), Set.ncard_prod, ncard_admits,
    ncard_admits]

/-- The table of R65, from the table of roles. -/
theorem legalWords_counts :
    (legalWords 0).ncard = 1536 ∧ (legalWords 1).ncard = 36 ∧ (legalWords 2).ncard = 1536 ∧
    (legalWords 3).ncard = 36 ∧ (legalWords 4).ncard = 36 ∧ (legalWords 5).ncard = 36 ∧
    (legalWords 6).ncard = 256 ∧ (legalWords 7).ncard = 256 :=
  ⟨ncard_legalWords (op := 0x00#8) rfl, ncard_legalWords (op := 0x01#8) rfl, ncard_legalWords (op := 0x02#8) rfl,
    ncard_legalWords (op := 0x03#8) rfl, ncard_legalWords (op := 0x04#8) rfl, ncard_legalWords (op := 0x05#8) rfl,
    ncard_legalWords (op := 0x06#8) rfl, ncard_legalWords (op := 0x07#8) rfl⟩

/-- A word that decodes is legal for one of the eight opcodes (R63). -/
theorem decodable_eq_iUnion : {w : InstrWord | ∃ i, decode w = .ok i} = ⋃ k : Fin 8, legalWords k := by
  ext w
  simp only [Set.mem_iUnion]
  constructor
  · intro hdecodes
    by_cases hop : 7 < (w.extractLsb' 16 8).toNat
    · obtain ⟨i, hi⟩ := hdecodes
      rw [← append_fields w, decode_illegal_opcode hop] at hi
      cases hi
    · exact ⟨⟨_, Nat.lt_succ_of_le (not_lt.mp hop)⟩, rfl, hdecodes⟩
  · rintro ⟨k, -, hdecodes⟩
    exact hdecodes

theorem ncard_decodable : {w : InstrWord | ∃ i, decode w = .ok i}.ncard = 3728 := by
  have hdisjoint : Pairwise (Function.onFun Disjoint fun k : Fin 8 => legalWords k) := by
    intro j k hne
    refine Set.disjoint_left.mpr ?_
    rintro w ⟨hj, -⟩ ⟨hk, -⟩
    exact hne (Fin.ext (hj.symm.trans hk))
  obtain ⟨h0, h1, h2, h3, h4, h5, h6, h7⟩ := legalWords_counts
  rw [decodable_eq_iUnion, Set.ncard_iUnion_of_finite (fun _ => Set.toFinite _) hdisjoint,
    finsum_eq_sum_of_fintype, Fin.sum_univ_eight]
  simp [h0, h1, h2, h3, h4, h5, h6, h7]

end Sys2Proof

namespace Sys2Proof.Machine

/-- A present word that does not decode raises one of the decoder's faults (R84). -/
theorem step_undecodable {s : State} (hr : s.runState = .running) (hp : (slotAt s s.ip.toNat).present = true)
    (hd : ∀ i, decode (slotAt s s.ip.toNat).word ≠ .ok i) : ∃ f, step s = .next (raiseFault (decodeCause f) s) := by
  cases h : decode (slotAt s s.ip.toNat).word with
  | ok i => exact absurd h (hd i)
  | error f => exact ⟨f, step_running_error hr (fetchDecode_undecodable hp h)⟩

theorem decodeCause_mem (f : DecodeFault) :
    decodeCause f ∈ [FaultCause.illegalOpcode, .illegalRegister, .reservedNonzero] := by
  cases f <;> decide

end Sys2Proof.Machine

namespace Sys2Proof

open Machine

/-- Settles O3: each opcode's legal words are the product of what its two roles allow, and the words that decode are the
disjoint union of these over the eight opcodes. -/
theorem legalWordCounts : Obligations.LegalWordCounts := by
  obtain ⟨h0, h1, h2, h3, h4, h5, h6, h7⟩ := legalWords_counts
  refine ⟨h0, h1, h2, h3, h4, h5, h6, h7, ncard_decodable, fun s hr hp hd => ?_⟩
  obtain ⟨f, hf⟩ := step_undecodable hr hp hd
  exact ⟨_, _, hf, faultedWith_raiseFault _ s, decodeCause_mem f⟩

end Sys2Proof
end

section
/-! PROOFS. What a completed instruction does is what its control record says (30_encoding.md R67). -/

namespace Sys2Proof.Machine

/-! ### The one state in which each instruction that may fault completes -/

theorem exec_jmp_completed {f : Byte} {s t : State} (h : exec (.jmp f) s = .next t) (hn : t.runState ≠ .faulted) :
    t = commit s (BitVec.ofInt 9 (s8 f)) 1 false false := by
  rcases resolveTarget_cases s f with ⟨hf, -⟩ | ⟨hf, -⟩
  · rw [exec_jmp_ok hf] at h; cases h; rfl
  · rw [exec_jmp_error hf] at h; cases h; exact absurd rfl hn

theorem exec_je_completed {f : Byte} {s t : State} (h : exec (.je f) s = .next t) (hn : t.runState ≠ .faulted) :
    t = commit s (if s.eq = true then BitVec.ofInt 9 (s8 f) else s.ip + 1#9) 1 false false := by
  cases he : s.eq with
  | false => rw [exec_je_clear f s he] at h; cases h; rfl
  | true => rw [exec_je_set f s he] at h; exact exec_jmp_completed h hn

theorem exec_ld_completed {d m : Reg} {s t : State} (h : exec (.ld d m) s = .next t) (hn : t.runState ≠ .faulted) :
    ∃ idx, formIndex s m = .ok idx ∧
      t = commit (setReg (touch s idx) d (memRead s idx)) (s.ip + 1#9) (accessCost (validAt s idx)) (validAt s idx)
        true := by
  cases hi : formIndex s m with
  | ok idx => rw [exec_ld_ok d hi] at h; cases h; exact ⟨idx, rfl, rfl⟩
  | error c => rw [exec_ld_error d hi] at h; cases h; exact absurd rfl hn

theorem exec_st_completed {m r : Reg} {s t : State} (h : exec (.st m r) s = .next t) (hn : t.runState ≠ .faulted) :
    ∃ idx, formIndex s m = .ok idx ∧
      t = commit (memWrite (touch s idx) idx (getReg s r)) (s.ip + 1#9) (accessCost (validAt s idx)) (validAt s idx)
        true := by
  cases hi : formIndex s m with
  | ok idx => rw [exec_st_ok r hi] at h; cases h; exact ⟨idx, rfl, rfl⟩
  | error c => rw [exec_st_error r hi] at h; cases h; exact absurd rfl hn

/-! ### The clauses of the record -/

section
variable {i : Instr} {s t : State} (h : exec i s = .next t) (hn : t.runState ≠ .faulted)
include h hn

/-- `reg_we`: the register `rd` takes the ALU's result, or the byte loaded. -/
theorem exec_writes_rd (hwe : (controlRecord i).regWe = true) :
    ∃ d, (controlRecord i).rd = some d ∧ SameRegsBut d s t ∧
      (∀ op b, (controlRecord i).aluOp = some op → (controlRecord i).aluB = some b →
        alu op (getReg s d) (aluBValue s b) = .byte (getReg t d)) ∧
      ((controlRecord i).memRd = true → ∃ m idx, (controlRecord i).rm = some m ∧ formIndex s m = .ok idx ∧
        getReg t d = memRead s idx) := by
  cases i with
  | mov d imm | add d r | addi d imm =>
    cases h
    refine ⟨d, rfl, fun _ hr => getReg_setReg_other s _ hr, fun op b hop hb => ?_, fun hrd => (by cases hrd)⟩
    cases hop; cases hb
    exact congrArg AluResult.byte (getReg_setReg_same s d _).symm
  | ld d m =>
    obtain ⟨idx, hidx, rfl⟩ := exec_ld_completed h hn
    exact ⟨d, rfl, fun _ hr => getReg_setReg_other _ _ hr, fun op b hop => (by cases hop),
      fun _ => ⟨m, idx, rfl, hidx, getReg_setReg_same _ d _⟩⟩
  | st m r | cmp d r | je f | jmp f => cases hwe

theorem exec_keeps_registers (hwe : (controlRecord i).regWe = false) : SameRegs s t := by
  cases i with
  | mov d imm | add d r | addi d imm | ld d m => cases hwe
  | st m r => obtain ⟨idx, -, rfl⟩ := exec_st_completed h hn; exact fun _ => rfl
  | cmp d r => cases h; exact fun _ => rfl
  | je f => obtain rfl := exec_je_completed h hn; exact fun _ => rfl
  | jmp f => obtain rfl := exec_jmp_completed h hn; exact fun _ => rfl

/-- `mem_wr`: the cell through `rm` takes the register `rs`. -/
theorem exec_writes_cell (hwr : (controlRecord i).memWr = true) :
    ∃ m r idx, (controlRecord i).rm = some m ∧ (controlRecord i).rs = some r ∧ formIndex s m = .ok idx ∧
      memRead t idx = getReg s r ∧ SameCacheBut idx s t := by
  cases i with
  | st m r =>
    obtain ⟨idx, hidx, rfl⟩ := exec_st_completed h hn
    exact ⟨m, r, idx, rfl, rfl, hidx, memRead_memWrite_same (touch s idx) idx _,
      fun _ hj => memRead_memWrite_other (touch s idx) _ hj⟩
  | _ => cases hwr

theorem exec_keeps_cache (hwr : (controlRecord i).memWr = false) : SameCache s t := by
  cases i with
  | mov d imm | add d r | addi d imm | cmp d r => cases h; exact fun _ => rfl
  | ld d m => obtain ⟨idx, -, rfl⟩ := exec_ld_completed h hn; exact fun _ => rfl
  | st m r => cases hwr
  | je f => obtain rfl := exec_je_completed h hn; exact fun _ => rfl
  | jmp f => obtain rfl := exec_jmp_completed h hn; exact fun _ => rfl

/-- `branch` not taken: IP goes on to the next address (R93). -/
theorem exec_falls_through
    (hb : (controlRecord i).branch = .none ∨ ((controlRecord i).branch = .ifEq ∧ s.eq = false)) :
    t.ip = s.ip + 1#9 := by
  cases i with
  | mov d imm | add d r | addi d imm | cmp d r => cases h; rfl
  | ld d m => obtain ⟨idx, -, rfl⟩ := exec_ld_completed h hn; rfl
  | st m r => obtain ⟨idx, -, rfl⟩ := exec_st_completed h hn; rfl
  | je f =>
    obtain rfl := exec_je_completed h hn
    rcases hb with hb | ⟨-, he⟩
    · cases hb
    · simp [he]
  | jmp f => rcases hb with hb | ⟨hb, -⟩ <;> cases hb

/-- `branch` taken: IP holds `target` (R93). -/
theorem exec_takes_branch
    (hb : (controlRecord i).branch = .always ∨ ((controlRecord i).branch = .ifEq ∧ s.eq = true)) :
    ∃ n, (controlRecord i).target = some n ∧ t.ip = BitVec.ofInt 9 n := by
  cases i with
  | jmp f => obtain rfl := exec_jmp_completed h hn; exact ⟨_, rfl, rfl⟩
  | je f =>
    obtain rfl := exec_je_completed h hn
    rcases hb with hb | ⟨-, he⟩
    · cases hb
    · exact ⟨_, rfl, by simp [he]⟩
  | _ => rcases hb with hb | ⟨hb, -⟩ <;> cases hb

/-- `base_cost` (R85). -/
theorem exec_costs_base_cost :
    t.cycles = countAdd s.config.counterWidth s.cycles ((controlRecord i).baseCost.amount (retiredAs i s).hit) := by
  have hcost : (retiredAs i s).cost = (controlRecord i).baseCost.amount (retiredAs i s).hit := by cases i <;> rfl
  obtain ⟨p, hdone⟩ := exec_completed h hn
  rw [hdone.cycles, hcost]

end

/-- `flag_we`: EQ takes the ALU's comparison. -/
theorem exec_writes_flag {i : Instr} {s t : State} (h : exec i s = .next t)
    (hwe : (controlRecord i).flagWe = true) :
    ∃ d b, (controlRecord i).rd = some d ∧ (controlRecord i).aluB = some b ∧ (controlRecord i).aluOp = some .eq ∧
      alu .eq (getReg s d) (aluBValue s b) = .bit t.eq := by
  cases i with
  | cmp d r => cases h; exact ⟨d, .reg r, rfl, rfl, rfl, rfl⟩
  | _ => cases hwe

theorem exec_keeps_flag {i : Instr} {s t : State} (h : exec i s = .next t)
    (hwe : (controlRecord i).flagWe = false) : t.eq = s.eq :=
  exec_eq_of_ne_cmp (by rintro d r rfl; cases hwe) h

/-- A record that enables no access names no base register. -/
theorem controlRecord_rm_eq_none {i : Instr} (hrd : (controlRecord i).memRd = false)
    (hwr : (controlRecord i).memWr = false) : (controlRecord i).rm = none := by
  cases i with
  | ld d m => cases hrd
  | st m r => cases hwr
  | _ => rfl

end Sys2Proof.Machine

namespace Sys2Proof

open Machine

/-- Settles O33: one lemma for each output of the record, by the state in which each instruction completes. -/
theorem controlRecordGovernsExecution : Obligations.ControlRecordGovernsExecution := fun _ _ _ _ h hn =>
  ⟨exec_writes_rd h hn, exec_keeps_registers h hn, exec_writes_flag h, exec_keeps_flag h, exec_writes_cell h hn,
    exec_keeps_cache h hn, fun hrd hwr => exec_sameValid (controlRecord_rm_eq_none hrd hwr) h,
    fun hb => exec_falls_through h hn (.inl hb), fun hb he => exec_falls_through h hn (.inr ⟨hb, he⟩),
    exec_takes_branch h hn, exec_costs_base_cost h hn⟩

end Sys2Proof
end

section
/-! PROOFS. The assembler reads back each instruction written in its documented form (30_encoding.md R70 to R75). -/

namespace Sys2Proof.Machine

/-! ### Numbers -/

theorem asmDigit_asmDigitChar {d : Nat} (h : d < 10) : asmDigit (asmDigitChar d) = some d := by
  revert d
  decide

/-- The number that decimal digits stand for after `acc`. -/
def decimalValue (acc : Nat) (ds : List Nat) : Nat := ds.foldl (fun n d => 10 * n + d) acc

theorem asmDigits_map {ds : List Nat} (h : ∀ d ∈ ds, d < 10) (acc : Nat) :
    asmDigits acc (ds.map asmDigitChar) = some (decimalValue acc ds) := by
  induction ds generalizing acc with
  | nil => rfl
  | cons d ds ih =>
    have hd := asmDigit_asmDigitChar (h d List.mem_cons_self)
    simp only [List.map_cons, asmDigits, hd]
    exact ih (fun e he => h e (List.mem_cons_of_mem d he)) (10 * acc + d)

/-- A number is written as one or more digits that stand for it. -/
theorem asmNatText_digits {n : Nat} (h : n < 1000) :
    ∃ d ds, asmNatText n = (d :: ds).map asmDigitChar ∧ (∀ e ∈ d :: ds, e < 10) ∧ decimalValue 0 (d :: ds) = n := by
  unfold asmNatText
  split
  · exact ⟨n, [], rfl, by simpa, by simp [decimalValue]⟩
  · split
    · refine ⟨n / 10, [n % 10], rfl, ?_, ?_⟩ <;> simp [decimalValue] <;> omega
    · refine ⟨n / 100, [n / 10 % 10, n % 10], rfl, ?_, ?_⟩ <;> simp [decimalValue] <;> omega

theorem asmNat_asmNatText {n : Nat} (h : n < 1000) : asmNat (asmNatText n) = some n := by
  obtain ⟨d, ds, htext, hdigits, hvalue⟩ := asmNatText_digits h
  rw [htext, ← hvalue]
  exact asmDigits_map hdigits 0

theorem not_mem_asmNatText {n : Nat} (h : n < 1000) {c : Char} (hc : asmDigit c = none) : c ∉ asmNatText n := by
  obtain ⟨d, ds, htext, hdigits, -⟩ := asmNatText_digits h
  rw [htext, List.mem_map]
  rintro ⟨e, he, rfl⟩
  rw [asmDigit_asmDigitChar (hdigits e he)] at hc
  cases hc

theorem asmAddr_asmNatText (a : SlotAddr) : asmAddr (asmNatText a.val) = some a := by
  have ha : asmNat (asmNatText a.val) = some a.val := asmNat_asmNatText (by omega)
  simp [asmAddr, ha]

/-! ### Operands -/

theorem trunc8_s8 (b : Byte) : trunc8 (s8 b) = b := by
  rw [s8_eq_toInt, trunc8, BitVec.ofInt_toInt]

theorem asmImm_minus {cs : List Char} {n : Nat} (h : asmNat cs = some n) (hn : n ≤ 128) :
    asmImm ('-' :: cs) = some (trunc8 (-(n : Int))) := by
  simp [asmImm, h, hn]

theorem asmImm_unsigned {cs : List Char} {n : Nat} (hminus : '-' ∉ cs) (h : asmNat cs = some n) (hn : n ≤ 127) :
    asmImm cs = some (trunc8 (n : Int)) := by
  unfold asmImm
  split
  · exact absurd List.mem_cons_self hminus
  · simp [h, hn]

theorem asmImm_asmImmText (b : Byte) : asmImm (asmImmText b) = some b := by
  have hrange := s8_range b
  have hnat : asmNat (asmNatText (s8 b).natAbs) = some (s8 b).natAbs := asmNat_asmNatText (by omega)
  unfold asmImmText
  split
  next hneg =>
    have habs : -((s8 b).natAbs : Int) = s8 b := by omega
    rw [asmImm_minus hnat (by omega), habs, trunc8_s8]
  next hneg =>
    have habs : ((s8 b).natAbs : Int) = s8 b := by omega
    rw [asmImm_unsigned (not_mem_asmNatText (by omega) rfl) hnat (by omega), habs, trunc8_s8]

theorem registerLetter_not_mem_asmImmText (b : Byte) : 'R' ∉ asmImmText b := by
  have hrange := s8_range b
  have hnat : 'R' ∉ asmNatText (s8 b).natAbs := not_mem_asmNatText (by omega) rfl
  unfold asmImmText
  split
  · simpa using hnat
  · exact hnat

theorem asmReg_asmRegText (r : Reg) : asmReg (asmRegText r) = some r := by
  revert r
  decide

theorem comma_not_mem_asmRegText (r : Reg) : ',' ∉ asmRegText r := by
  revert r
  decide

/-- `[Rm]`, as LD and ST write it (R77). -/
def asmBracketText (m : Reg) : List Char := '[' :: asmRegText m ++ [']']

theorem asmBracket_asmBracketText (m : Reg) : asmBracket (asmBracketText m) = some m := asmReg_asmRegText m

theorem comma_not_mem_asmBracketText (m : Reg) : ',' ∉ asmBracketText m := by
  revert m
  decide

/-! ### Lines -/

/-- A text is cut at the first of the characters that stop it. -/
theorem asmCut_append {stops : List Char} {c : Char} (hc : c ∈ stops) {a : List Char} (ha : ∀ d ∈ a, d ∉ stops)
    (b : List Char) : asmCut stops (a ++ c :: b) = some (a, b) := by
  induction a with
  | nil => simp [asmCut, hc]
  | cons d a ih =>
    have hd := ha d List.mem_cons_self
    have hrest := ih fun e he => ha e (List.mem_cons_of_mem d he)
    simp [asmCut, hd, hrest]

theorem asmTwo_append {a : List Char} (ha : ',' ∉ a) (b : List Char) :
    asmTwo (a ++ ',' :: ' ' :: b) = some (a, b) := by
  have hcut : asmCut [','] (a ++ ',' :: ' ' :: b) = some (a, ' ' :: b) :=
    asmCut_append (by simp) (fun d hd => by simpa using ne_of_mem_of_not_mem hd ha) _
  simp [asmTwo, hcut]

theorem asmMov_text (d : Reg) (imm : Byte) :
    asmMov (asmRegText d ++ ',' :: ' ' :: asmImmText imm) = some (.mov d imm) := by
  simp [asmMov, asmTwo_append (comma_not_mem_asmRegText d), asmReg_asmRegText, asmImm_asmImmText]

theorem asmAdd_register_text (d s : Reg) :
    asmAdd (asmRegText d ++ ',' :: ' ' :: asmRegText s) = some (.add d s) := by
  simp only [asmAdd, asmTwo_append (comma_not_mem_asmRegText d), asmReg_asmRegText, Option.bind_eq_bind,
    Option.bind_some]
  rfl

/-- An immediate never begins with the register letter, so ADD is ADD-immediate (R76). -/
theorem asmAdd_immediate_text (d : Reg) (imm : Byte) :
    asmAdd (asmRegText d ++ ',' :: ' ' :: asmImmText imm) = some (.addi d imm) := by
  have hR := registerLetter_not_mem_asmImmText imm
  have himm := asmImm_asmImmText imm
  generalize asmImmText imm = text at hR himm
  simp only [asmAdd, asmTwo_append (comma_not_mem_asmRegText d), asmReg_asmRegText, Option.bind_eq_bind,
    Option.bind_some]
  split
  · exact absurd List.mem_cons_self hR
  · rw [himm]; rfl

theorem asmLd_text (d m : Reg) : asmLd (asmRegText d ++ ',' :: ' ' :: asmBracketText m) = some (.ld d m) := by
  simp [asmLd, asmTwo_append (comma_not_mem_asmRegText d), asmReg_asmRegText, asmBracket_asmBracketText]

theorem asmSt_text (m s : Reg) : asmSt (asmBracketText m ++ ',' :: ' ' :: asmRegText s) = some (.st m s) := by
  simp [asmSt, asmTwo_append (comma_not_mem_asmBracketText m), asmReg_asmRegText, asmBracket_asmBracketText]

theorem asmCmp_text (d s : Reg) : asmCmp (asmRegText d ++ ',' :: ' ' :: asmRegText s) = some (.cmp d s) := by
  simp [asmCmp, asmTwo_append (comma_not_mem_asmRegText d), asmReg_asmRegText]

/-- The documented form is a mnemonic, one space and operands that assemble to the instruction (R75). -/
theorem asmInstrText_parts (i : Instr) :
    ∃ mnemonic ops, asmInstrText i = mnemonic ++ ' ' :: ops ∧ ' ' ∉ mnemonic ∧ asmInstr mnemonic ops = some i := by
  cases i with
  | mov d imm => exact ⟨['M', 'O', 'V'], _, rfl, by decide, asmMov_text d imm⟩
  | add d s => exact ⟨['A', 'D', 'D'], _, rfl, by decide, asmAdd_register_text d s⟩
  | addi d imm => exact ⟨['A', 'D', 'D'], _, rfl, by decide, asmAdd_immediate_text d imm⟩
  | ld d m => exact ⟨['L', 'D'], _, rfl, by decide, asmLd_text d m⟩
  | st m s => exact ⟨['S', 'T'], _, rfl, by decide, asmSt_text m s⟩
  | cmp d s => exact ⟨['C', 'M', 'P'], _, rfl, by decide, asmCmp_text d s⟩
  | je t => exact ⟨['J', 'E'], _, rfl, by decide, congrArg (Option.map Instr.je) (asmImm_asmImmText t)⟩
  | jmp t => exact ⟨['J', 'M', 'P'], _, rfl, by decide, congrArg (Option.map Instr.jmp) (asmImm_asmImmText t)⟩

theorem asmLine_asmLineText (a : SlotAddr) (i : Instr) : asmLine (asmLineText a i) = some (a, i) := by
  obtain ⟨mnemonic, ops, htext, hspace, hinstr⟩ := asmInstrText_parts i
  have haddr : asmCut [' ', '\t'] (asmLineText a i) = some (asmNatText a.val, asmInstrText i) := by
    rw [asmLineText, List.append_assoc]
    refine asmCut_append (by simp) (fun c hc hstop => ?_) _
    have hdigit : asmDigit c = none := by
      simp only [List.mem_cons, List.not_mem_nil, or_false] at hstop
      rcases hstop with rfl | rfl <;> rfl
    exact not_mem_asmNatText (by omega) hdigit hc
  have hrest : asmCut [' '] (asmInstrText i) = some (mnemonic, ops) := by
    rw [htext]
    exact asmCut_append (by simp) (fun d hd => by simpa using ne_of_mem_of_not_mem hd hspace) ops
  simp [asmLine, haddr, hrest, asmAddr_asmNatText, hinstr]

end Sys2Proof.Machine

namespace Sys2Proof

/-- Settles O48: the address is cut at the tab and the mnemonic at the space, and each operand is read back. -/
theorem assemblerReadsBackEveryInstruction : Obligations.AssemblerReadsBackEveryInstruction :=
  Machine.asmLine_asmLineText

end Sys2Proof
end

section
/-! PROOFS. What the assembler accepts: one legal word for each line, at distinct addresses (30_encoding.md R71, R72,
R79). -/

namespace Sys2Proof.Machine

/-- A text is assembled line by line, and one bad line is fatal (R79). -/
theorem asmLines_cons {l : List Char} {ls : List (List Char)} {ps : List (SlotAddr × Instr)}
    (h : asmLines (l :: ls) = some ps) : ∃ p qs, asmLine l = some p ∧ asmLines ls = some qs ∧ ps = p :: qs := by
  unfold asmLines at h
  split at h
  next p qs hp hqs => cases h; exact ⟨p, qs, hp, hqs, rfl⟩
  next => cases h

theorem asmLines_length {lines : List (List Char)} {ps : List (SlotAddr × Instr)} (h : asmLines lines = some ps) :
    ps.length = lines.length := by
  induction lines generalizing ps with
  | nil => cases h; rfl
  | cons l ls ih =>
    obtain ⟨p, qs, -, hqs, rfl⟩ := asmLines_cons h
    rw [List.length_cons, List.length_cons, ih hqs]

/-- A program is the words of the instructions its lines assemble to, at distinct addresses (R71). -/
theorem assemble_eq_some {lines : List (List Char)} {words : List (SlotAddr × InstrWord)}
    (h : assemble lines = some words) :
    ∃ ps, asmLines lines = some ps ∧ (ps.map Prod.fst).Nodup ∧ words = ps.map fun p => (p.1, encode p.2) := by
  unfold assemble at h
  split at h
  next ps hps =>
    split at h
    next hnodup => cases h; exact ⟨ps, hps, hnodup, rfl⟩
    next => cases h
  next => cases h

end Sys2Proof.Machine

namespace Sys2Proof

open Machine

/-- Settles O49: the words are the encodings of the instructions the lines assemble to, and an encoding decodes. -/
theorem assembledProgramsAreLegal : Obligations.AssembledProgramsAreLegal := by
  intro lines words h
  obtain ⟨ps, hps, hnodup, rfl⟩ := assemble_eq_some h
  refine ⟨by rw [List.length_map, asmLines_length hps], ?_, fun p hp => ?_⟩
  · rw [List.map_map]
    exact hnodup
  · obtain ⟨q, -, rfl⟩ := List.mem_map.mp hp
    exact ⟨q.2, decode_encode q.2⟩

end Sys2Proof
end

section
/-! PROOFS. The ALU (40_execution_cycle.md R92): a sum is the sum of the patterns, read as signed or as unsigned. -/

namespace Sys2Proof.Machine

theorem trunc8_s8_add_s8 (a b : Byte) : trunc8 (s8 a + s8 b) = a + b := by
  rw [s8_eq_toInt, s8_eq_toInt, trunc8, BitVec.ofInt_add, BitVec.ofInt_toInt, BitVec.ofInt_toInt]

theorem trunc8_u8_add_u8 (a b : Byte) : trunc8 ((u8 a : Int) + (u8 b : Int)) = a + b := by
  rw [trunc8, BitVec.ofInt_add, BitVec.ofInt_natCast, BitVec.ofInt_natCast, u8, u8, BitVec.ofNat_toNat,
    BitVec.ofNat_toNat, BitVec.setWidth_eq, BitVec.setWidth_eq]

/-- A number in the range of a signed byte survives being stored as one (R8). -/
theorem s8_trunc8 {n : Int} (hlo : -128 ≤ n) (hhi : n ≤ 127) : s8 (trunc8 n) = n := by
  rw [s8_eq_toInt, trunc8, BitVec.toInt_ofInt]
  exact Int.bmod_eq_of_le (by omega) (by omega)

theorem aluEq_eq_ite (a b : Byte) : aluEq a b = if a = b then true else false := by
  by_cases h : a = b <;> simp [aluEq, h]

/-- Subtracting a constant is adding its negation's pattern; the ALU has no other subtraction (R100). -/
theorem aluAdd_trunc8_neg (a : Byte) {k : Nat} (h1 : 1 ≤ k) (h128 : k ≤ 128) :
    aluAdd a (trunc8 (-(k : Int))) = trunc8 (s8 a - (k : Int)) := by
  rw [aluAdd, s8_trunc8 (by omega) (by omega), Int.sub_eq_add_neg]

end Sys2Proof.Machine

namespace Sys2Proof

open Machine

/-- Settles O11: both readings of the operands give the sum of the patterns, and -128..-1 are signed bytes. -/
theorem aluComputesItsTable : Obligations.AluComputesItsTable := by
  intro a b
  refine ⟨rfl, rfl, congrArg AluResult.bit (aluEq_eq_ite a b), fun op => ?_, ?_, ?_, fun k h1 h128 => ⟨?_, ?_⟩⟩
  · cases op <;> simp
  · rw [trunc8_s8_add_s8, trunc8_u8_add_u8]
  · rw [trunc8_s8_add_s8]
    exact BitVec.toNat_add a b
  · exact s8_trunc8 (by omega) (by omega)
  · exact congrArg AluResult.byte (aluAdd_trunc8_neg a h1 h128)

end Sys2Proof
end

section
/-! PROOFS. One step (40_execution_cycle.md R81 to R87): it runs the decoded instruction, and counts and halts by what
that completes. -/

namespace Sys2Proof.Machine

/-- A completed step counts the cost of the instruction it retires. -/
theorem completed_of_completedBy {s : State} {r : Retired} (h : completedBy s = some r) :
    ∃ p, Completed s (hostStep s) p r.cost r.hit (isMemInstr r.instr) := by
  obtain ⟨-, i, t, -, ht, hs, hn, rfl⟩ := completedBy_eq_some h
  rw [hs, retiredAs_instr]
  exact exec_completed ht hn

/-! ### How a run ends (R87) -/

section
variable {s t : State} {p : Ip} {n : Nat} {hit isMem : Bool}

theorem Completed.halted_iff (hdone : Completed s t p n hit isMem) (hr : s.runState = .running) :
    t.runState = .halted ↔ s.exit.toInt < (t.ip.toNat : Int) := by
  rw [hdone.runState, hdone.ip, hr]
  split <;> simp [*]

theorem Completed.running_iff (hdone : Completed s t p n hit isMem) (hr : s.runState = .running) :
    t.runState = .running ↔ (t.ip.toNat : Int) ≤ s.exit.toInt := by
  rw [hdone.runState, hdone.ip, hr, ← Int.not_lt]
  split <;> simp [*]

end

theorem exec_jmp_resolves {f : Byte} {s t : State} (h : exec (.jmp f) s = .next t) (hn : t.runState ≠ .faulted) :
    resolveTarget s f = .ok t.ip := by
  cases hf : resolveTarget s f with
  | ok p => rw [exec_jmp_ok hf] at h; cases h; rfl
  | error c => rw [exec_jmp_error hf] at h; cases h; exact absurd rfl hn

/-- A completed instruction goes on to the next address, or is a jump taken to a target that resolved (R93). -/
theorem exec_ip {i : Instr} {s t : State} (h : exec i s = .next t) (hn : t.runState ≠ .faulted) :
    t.ip = s.ip + 1#9 ∨
      ∃ f, (i = .jmp f ∨ (i = .je f ∧ s.eq = true)) ∧ resolveTarget s f = .ok t.ip := by
  cases i with
  | jmp f => exact .inr ⟨f, .inl rfl, exec_jmp_resolves h hn⟩
  | je f =>
    cases he : s.eq with
    | false => exact .inl (exec_falls_through h hn (.inr ⟨rfl, he⟩))
    | true =>
      rw [exec_je_set f s he] at h
      exact .inr ⟨f, .inr ⟨rfl, rfl⟩, exec_jmp_resolves h hn⟩
  | _ => exact .inl (exec_falls_through h hn (.inl rfl))

/-- While the block is RUNNING an accepted target is not negative, so IP holds its value (R106). -/
theorem Inv_target_toNat {s : State} (hi : s.Inv) (hr : s.runState = .running) {f : Byte} {p : Ip}
    (h : resolveTarget s f = .ok p) : (p.toNat : Int) = s8 f := by
  have hb := Inv_running_bounds hi hr
  rcases resolveTarget_cases s f with ⟨hok, hf⟩ | ⟨herr, -⟩
  · rw [hok] at h
    cases h
    exact s8_ofNat_ip (by omega)
  · rw [herr] at h
    cases h

/-- The two ways past EXIT: falling through from it, and a taken jump (R87). -/
theorem exec_past_exit {i : Instr} {s t : State} (hi : s.Inv) (hr : s.runState = .running)
    (h : exec i s = .next t) (hn : t.runState ≠ .faulted) (hpast : s.exit.toInt < (t.ip.toNat : Int)) :
    ((s.ip.toNat : Int) = s.exit.toInt ∧ (t.ip.toNat : Int) = s.exit.toInt + 1) ∨
      ∃ f, (i = .jmp f ∨ (i = .je f ∧ s.eq = true)) ∧ s.exit.toInt < s8 f ∧ (t.ip.toNat : Int) = s8 f := by
  rcases exec_ip h hn with hip | ⟨f, hf, hip⟩
  · left
    have hb := Inv_running_bounds hi hr
    have hnext := Inv_next_ip hi hr
    rw [hip] at hpast ⊢
    omega
  · have htarget := Inv_target_toNat hi hr hip
    exact .inr ⟨f, hf, htarget ▸ hpast, htarget⟩

/-- A step that ends in FAULTED only raised a fault (R114). -/
theorem step_eq_raiseFault {s t : State} (hr : s.runState = .running) (h : step s = .next t)
    (hf : t.runState = .faulted) : ∃ c, t = raiseFault c s := by
  rcases step_ending s with ⟨hn, -⟩ | ⟨-, u, hu, he⟩
  · exact absurd hr hn
  · rw [hu] at h
    cases h
    rcases ending_faults_or_commits he with ⟨c, -, hc⟩ | ⟨v, p, n, k, m, rfl, hv⟩
    · exact ⟨c, hc⟩
    · exact absurd hf (commit_runState_ne_faulted hr p n k m hv)

end Sys2Proof.Machine

namespace Sys2Proof

open Machine

/-- Settles O24: fetch answers the slot's word, decode its instruction. -/
theorem stepRunsDecodedInstruction : Obligations.StepRunsDecodedInstruction :=
  fun _ _ hr hp hd => step_running_ok hr (fetchDecode_ok hp hd)

/-- Settles O26: every ending of a step and of an instruction is a next state. -/
theorem everyStepAnswersNextState : Obligations.EveryStepAnswersNextState := by
  refine ⟨fun s => ⟨hostStep s, step_eq_hostStep s⟩, fun i s => ?_⟩
  obtain ⟨t, ht, -⟩ := exec_ending i s
  exact ⟨t, ht⟩

/-- Settles O27: a completed step is `Completed` with the retired instruction's cost, and IP passes EXIT in two ways. -/
theorem completedStepCountsItsCost : Obligations.CompletedStepCountsItsCost := by
  refine ⟨fun s r h => ?_, fun s t hr h hf => ?_⟩
  · obtain ⟨p, hdone⟩ := completed_of_completedBy h
    obtain ⟨hr, i, t, -, ht, rfl, hn, rfl⟩ := completedBy_eq_some h
    have hhalt := hdone.halted_iff hr
    refine ⟨_, step_eq_hostStep s, hdone.execCount, hdone.cycles, hdone.hits, hdone.ldst, hhalt,
      hdone.running_iff hr, fun hi ht' => ?_⟩
    rw [retiredAs_instr]
    exact exec_past_exit hi hr ht hn (hhalt.mp ht')
  · obtain ⟨c, rfl⟩ := step_eq_raiseFault hr h hf
    exact ⟨rfl, rfl, rfl, rfl⟩

end Sys2Proof
end

section
/-! PROOFS. What the counters accumulate over a run (40_execution_cycle.md R86, R90, R91). -/

namespace Sys2Proof.Machine

/-- Every counter holds a value of its width. -/
structure CountersFit (s : State) : Prop where
  execCount : counterHolds s.config.counterWidth s.execCount
  cycles    : counterHolds s.config.counterWidth s.cycles
  hits      : counterHolds s.config.counterWidth s.hits
  ldst      : counterHolds s.config.counterWidth s.ldst

/-- `t` is a state after `s` whose counters have moved by what the instructions `rs` add. -/
structure CountersMovedBy (rs : List Retired) (s t : State) : Prop where
  config    : t.config = s.config
  execCount : t.execCount = countAdd s.config.counterWidth s.execCount rs.length
  cycles    : t.cycles = countAdd s.config.counterWidth s.cycles (rs.map Retired.cost).sum
  hits      : t.hits = countAdd s.config.counterWidth s.hits (rs.countP fun r => r.hit)
  ldst      : t.ldst = countAdd s.config.counterWidth s.ldst (rs.countP fun r => isMemInstr r.instr)

theorem CountersFit.movedBy_nil {s : State} (h : CountersFit s) : CountersMovedBy [] s s :=
  ⟨rfl, (countAdd_zero h.execCount).symm, (countAdd_zero h.cycles).symm, (countAdd_zero h.hits).symm,
    (countAdd_zero h.ldst).symm⟩

theorem CountersMovedBy.append {rs qs : List Retired} {s t u : State} (h : CountersMovedBy rs s t)
    (g : CountersMovedBy qs t u) : CountersMovedBy (rs ++ qs) s u where
  config    := g.config.trans h.config
  execCount := by rw [g.execCount, h.config, h.execCount, countAdd_countAdd, List.length_append]
  cycles    := by rw [g.cycles, h.config, h.cycles, countAdd_countAdd, List.map_append, List.sum_append]
  hits      := by rw [g.hits, h.config, h.hits, countAdd_countAdd, List.countP_append]
  ldst      := by rw [g.ldst, h.config, h.ldst, countAdd_countAdd, List.countP_append]

theorem CountersMovedBy.countersFit {rs : List Retired} {s t : State} (h : CountersMovedBy rs s t) :
    CountersFit t := by
  constructor
  · rw [h.config, h.execCount]; exact counterHolds_countAdd _ _ _
  · rw [h.config, h.cycles]; exact counterHolds_countAdd _ _ _
  · rw [h.config, h.hits]; exact counterHolds_countAdd _ _ _
  · rw [h.config, h.ldst]; exact counterHolds_countAdd _ _ _

theorem Completed.countersMovedBy {s t : State} {p : Ip} {r : Retired}
    (h : Completed s t p r.cost r.hit (isMemInstr r.instr)) : CountersMovedBy [r] s t where
  config    := h.program.config
  execCount := h.execCount
  cycles    := h.cycles
  hits      := by rw [h.hits, List.countP_singleton]
  ldst      := by rw [h.ldst, List.countP_singleton]

/-- A step moves the counters by the instruction it completes, if any. -/
theorem hostStep_countersMovedBy {s : State} (h : CountersFit s) :
    CountersMovedBy (completedBy s).toList s (hostStep s) := by
  cases hc : completedBy s with
  | some r =>
    obtain ⟨p, hdone⟩ := completed_of_completedBy hc
    exact hdone.countersMovedBy
  | none =>
    have hnil := h.movedBy_nil
    rcases completedBy_eq_none hc with hs | ⟨c, hs⟩ <;> rw [hs]
    · exact hnil
    · exact ⟨rfl, hnil.execCount, hnil.cycles, hnil.hits, hnil.ldst⟩

theorem runFor_countersMovedBy (k : Nat) {s : State} (h : CountersFit s) :
    CountersMovedBy (retiredIn k s) s (runFor k s) := by
  induction k generalizing s with
  | zero => exact h.movedBy_nil
  | succ k ih =>
    have hstep := hostStep_countersMovedBy h
    exact hstep.append (ih hstep.countersFit)

end Sys2Proof.Machine

namespace Sys2Proof

open Machine

/-- Settles O46, by induction on the number of steps: what two runs in a row add is added together. -/
theorem countersAccumulateWhatCompletes : Obligations.CountersAccumulateWhatCompletes := by
  intro k s hexec hcycles hhits hldst
  have h := runFor_countersMovedBy k (s := s) ⟨hexec, hcycles, hhits, hldst⟩
  exact ⟨h.execCount, h.cycles, h.hits, h.ldst⟩

end Sys2Proof
end

section
/-! PROOFS. Start (40_execution_cycle.md R82, 70_reset_and_hazards.md R134). -/

namespace Sys2Proof.Machine

/-- In IDLE nothing has been counted since reset (R125). -/
theorem Inv_idle_counters {s : State} (hi : s.Inv) (h : s.runState = .idle) :
    s.execCount = 0 ∧ s.cycles = 0 ∧ s.hits = 0 ∧ s.ldst = 0 := by
  have hs := hi.idle h
  exact ⟨congrArg State.execCount hs, congrArg State.cycles hs, congrArg State.hits hs, congrArg State.ldst hs⟩

/-- ENTRY is past EXIT only while both are the sentinels of an empty program (R22). -/
theorem Inv_entry_of_empty {s : State} (hi : s.Inv) (h : s.exit.toInt < s.entry.toInt) : s.entry.toInt = 256 := by
  rcases hi.bounds with ⟨he, -⟩ | ⟨-, hle, -⟩
  · exact he
  · omega

end Sys2Proof.Machine

namespace Sys2Proof

open Machine

/-- Settles O35: the bounds are those of a program, or the sentinels, and IP holds either value of ENTRY. -/
theorem startBeginsAtEntry : Obligations.StartBeginsAtEntry := by
  refine ⟨fun s hi h => ?_, fun s h => hostStart_ignored h⟩
  have hentry := (Inv_entry_toNat hi).1
  have hcounters := Inv_idle_counters hi h
  rw [hostStart_idle h]
  refine ⟨hentry, fun hle => if_pos hle, fun hlt => ⟨if_neg (by omega), ?_, hcounters⟩, rfl⟩
  have hempty := Inv_entry_of_empty hi hlt
  dsimp only
  omega

end Sys2Proof
end

section
/-! PROOFS. MOV, ADD-register and ADD-immediate (41_register_alu.md R94 to R99): each writes one register and goes on to
the next instruction at cost 1. -/

namespace Sys2Proof.Machine

/-- An instruction that answers the commit of one register write completes, and changes no other register, not EQ, no
cell and no VALID bit. -/
theorem exec_register_write_frame {i : Instr} {s : State} {d : Reg} {v : Byte} {p : Ip} {n : Nat}
    (h : exec i s = .next (commit (setReg s d v) p n false false)) :
    ∃ t, exec i s = .next t ∧ getReg t d = v ∧ SameRegsBut d s t ∧ t.eq = s.eq ∧ SameCache s t ∧ SameValid s t ∧
      Completed s t p n false false :=
  ⟨_, h, getReg_setReg_same s d v, fun _ hr => getReg_setReg_other s v hr, rfl, fun _ => rfl, fun _ => rfl,
    completed_commit p n false false rfl⟩

end Sys2Proof.Machine

namespace Sys2Proof

open Machine

/-- Settles O8: its word is the one it encodes to, and it answers the commit of one register write. -/
theorem movLoadsImmediate : Obligations.MovLoadsImmediate :=
  ⟨fun d imm => decode_encode (.mov d imm),
    fun _ imm hf => decode_illegal_first_register (by decide) hf imm,
    fun d imm s => exec_register_write_frame (exec_mov d imm s)⟩

/-- Settles O9: as MOV, with two register fields; the sum written is of the values in the state before. -/
theorem addRegisterWraps : Obligations.AddRegisterWraps :=
  ⟨fun d r => decode_encode (.add d r),
    fun _ _ hfg => decode_bad_register_pair hfg 0x01#8 (by decide),
    fun d r s => exec_register_write_frame (exec_add d r s)⟩

/-- Settles O10: as MOV, with the sum in place of the immediate. -/
theorem addImmediateWraps : Obligations.AddImmediateWraps :=
  ⟨fun d imm => decode_encode (.addi d imm),
    fun _ imm hf => decode_illegal_first_register (by decide) hf imm,
    fun d imm s => exec_register_write_frame (exec_addi d imm s)⟩

end Sys2Proof
end

section
/-! PROOFS. CMP, JE and JMP (42_compare_branch.md R101 to R105): each answers the commit of at most a flag write, or the
fault of a rejected target. -/

namespace Sys2Proof.Machine

/-- An instruction that answers the commit of a flag write completes, and changes no register, no cell and no VALID bit.
One that writes nothing is the case `b = s.eq`, since `setEq s s.eq` is `s`. -/
theorem exec_flag_write_frame {i : Instr} {s : State} {b : Bool} {p : Ip} {n : Nat}
    (h : exec i s = .next (commit (setEq s b) p n false false)) :
    ∃ t, exec i s = .next t ∧ SameRegs s t ∧ t.eq = b ∧ SameCache s t ∧ SameValid s t ∧
      Completed s t p n false false :=
  ⟨_, h, fun _ => rfl, rfl, fun _ => rfl, fun _ => rfl, completed_commit p n false false rfl⟩

theorem exec_jmp_faultedWith {f : Byte} {s : State} {c : FaultCause} (h : resolveTarget s f = .error c) :
    ∃ t, exec (.jmp f) s = .next t ∧ FaultedWith c s t :=
  ⟨_, exec_jmp_error h, faultedWith_raiseFault c s⟩

theorem exec_je_set_faultedWith {f : Byte} {s : State} {c : FaultCause} (he : s.eq = true)
    (h : resolveTarget s f = .error c) : ∃ t, exec (.je f) s = .next t ∧ FaultedWith c s t := by
  rw [exec_je_set f s he]
  exact exec_jmp_faultedWith h

/-- IP never holds less than the target put in it: a negative target wraps upwards. -/
theorem s8_le_ofInt_ip (f : Byte) : s8 f ≤ ((BitVec.ofInt 9 (s8 f)).toNat : Int) := by
  have hmax := (s8_range f).2
  rw [BitVec.toNat_ofInt]
  omega

theorem exec_jmp_past_exit {f : Byte} {s : State} (h : s.exit.toInt < s8 f) :
    ∃ t, exec (.jmp f) s = .next t ∧ t.runState = .halted :=
  ⟨_, exec_jmp_ok (resolveTarget_ok (.inl h)), if_pos (h.trans_le (s8_le_ofInt_ip f))⟩

/-- A jump to its own address leaves IP and the run state as they are (R105). -/
theorem exec_jmp_own_address {f : Byte} {s : State} (hown : s8 f = (s.ip.toNat : Int)) (hhi : s8 f ≤ s.exit.toInt)
    (hlo : s.entry.toInt ≤ s8 f) (hp : presentAt s (s8 f) = true) :
    ∃ t, exec (.jmp f) s = .next t ∧ t.ip = s.ip ∧ t.runState = s.runState ∧
      t.cycles = countAdd s.config.counterWidth s.cycles 1 := by
  have hip : BitVec.ofInt 9 (s8 f) = s.ip := by
    rw [hown, BitVec.ofInt_natCast, BitVec.ofNat_toNat, BitVec.setWidth_eq]
  have hok : resolveTarget s f = .ok s.ip := hip ▸ resolveTarget_ok (.inr ⟨hlo, hp⟩)
  exact ⟨_, exec_jmp_ok hok, rfl, if_neg (by omega), rfl⟩

end Sys2Proof.Machine

namespace Sys2Proof

open Machine

/-- Settles O12: its word is the one it encodes to, and it answers the commit of one flag write. -/
theorem cmpSetsEqualityFlag : Obligations.CmpSetsEqualityFlag := by
  refine ⟨fun d r => decode_encode (.cmp d r), fun _ _ hfg => decode_bad_register_pair hfg 0x05#8 (by decide),
    fun d r s => ?_⟩
  obtain ⟨t, ht, hregs, heq, hframe⟩ := exec_flag_write_frame (exec_cmp d r s)
  exact ⟨t, ht, by rw [heq, decide_eq_true_iff], hregs, hframe⟩

/-- Settles O13: with EQ clear it falls through, with EQ set it answers what JMP answers. -/
theorem jeFollowsTheFlag : Obligations.JeFollowsTheFlag :=
  ⟨fun f => decode_encode (.je f),
    fun f _ hg => decode_nonzero_reserved (by decide) hg f,
    fun f s he => exec_flag_write_frame (exec_je_clear f s he),
    fun f s he hacc => exec_flag_write_frame ((exec_je_set f s he).trans (exec_jmp_ok (resolveTarget_ok hacc))),
    fun _ _ he hhi hrej => exec_je_set_faultedWith he (resolveTarget_rejects hhi hrej)⟩

/-- Settles O14: it answers the commit at an accepted target, the fault of a rejected one; the corner cases by what IP
holds after the commit. -/
theorem jmpAlwaysJumps : Obligations.JmpAlwaysJumps :=
  ⟨fun f => decode_encode (.jmp f),
    fun f _ hg => decode_nonzero_reserved (by decide) hg f,
    fun _ _ hacc => exec_flag_write_frame (exec_jmp_ok (resolveTarget_ok hacc)),
    fun _ _ hhi hrej => exec_jmp_faultedWith (resolveTarget_rejects hhi hrej),
    fun _ _ => exec_jmp_past_exit,
    fun _ _ => exec_jmp_own_address,
    fun f => (s8_range f).2⟩

end Sys2Proof
end

section
/-! PROOFS. How a jump's target resolves (42_compare_branch.md R106). -/

namespace Sys2Proof.Machine

/-- A target that is not negative addresses the slot of its own byte. -/
theorem presentAt_s8 {s : State} {f : Byte} (h : 0 ≤ s8 f) : presentAt s (s8 f) = (slotAt s f.toNat).present := by
  simp [presentAt, s8_nonneg h]

/-- Inside ENTRY..EXIT only a gap is rejected. -/
theorem resolveTarget_inside_rejects_iff {s : State} {f : Byte} (h0 : 0 ≤ s8 f) (hlo : s.entry.toInt ≤ s8 f)
    (hhi : s8 f ≤ s.exit.toInt) :
    resolveTarget s f = .error .jumpTargetInvalid ↔ (slotAt s f.toNat).present = false := by
  rw [← presentAt_s8 h0]
  cases hp : presentAt s (s8 f) with
  | true => simp [resolveTarget_ok (.inr ⟨hlo, hp⟩)]
  | false => simp [resolveTarget_rejects hhi (.inr hp)]

end Sys2Proof.Machine

namespace Sys2Proof

open Machine

/-- Settles O15: a lemma for each way a target resolves; in RUNNING the bounds are not negative, so every target at or
past ENTRY is a slot's address and IP holds it. -/
theorem targetResolution : Obligations.TargetResolution := by
  refine ⟨fun _ _ hpast => resolveTarget_ok (.inl hpast), fun _ _ => resolveTarget_rejects,
    fun _ _ _ hlo hp => resolveTarget_ok (.inr ⟨hlo, hp⟩),
    fun _ _ hrej => ⟨exec_jmp_faultedWith hrej, fun he => exec_je_set_faultedWith he hrej⟩, fun s f hi hr => ?_⟩
  obtain ⟨hentry, hle, hexit, -⟩ := Inv_running_bounds hi hr
  refine ⟨⟨hentry, hle, hexit⟩, fun p hok => ?_, fun hneg => ?_, fun hlo hhi => ?_⟩
  · have hip := Inv_target_toNat hi hr hok
    exact ⟨by omega, (s8_range f).2, hip⟩
  · exact resolveTarget_rejects (by omega) (.inl (by omega))
  · exact resolveTarget_inside_rejects_iff (by omega) hlo hhi

end Sys2Proof
end

section
/-! PROOFS. LD and ST (43_load_store.md R107 to R111): the index of `[Rm]`, what an access through a formed index changes
and leaves unchanged, the one fault, and that Identifier mode does not read the base register. -/

namespace Sys2Proof.Machine

/-! ### The index, and the registers an access leaves -/

/-- In Identifier mode the index is the identifier, the same in every state of that configuration (R107). -/
theorem formIndex_identifier (s : State) (m : Reg) (hmode : s.config.addrMode = .identifier) :
    formIndex s m = .ok ⟨m.val, by omega⟩ := by
  simp [formIndex, hmode]

/-- An LD writes no register but its destination, whether it completes or faults. -/
theorem exec_ld_sameRegsBut {d m : Reg} {s t : State} (h : exec (.ld d m) s = .next t) : SameRegsBut d s t := by
  cases hidx : formIndex s m with
  | ok idx => rw [exec_ld_ok d hidx] at h; cases h; exact fun _ hq => getReg_setReg_other _ _ hq
  | error c => rw [exec_ld_error d hidx] at h; cases h; exact fun _ _ => rfl

/-- An ST writes no register, whether it completes or faults. -/
theorem exec_st_sameRegs {m r : Reg} {s t : State} (h : exec (.st m r) s = .next t) : SameRegs s t := by
  cases hidx : formIndex s m with
  | ok idx => rw [exec_st_ok r hidx] at h; cases h; exact fun _ => rfl
  | error c => rw [exec_st_error r hidx] at h; cases h; exact fun _ => rfl

/-! ### An access whole -/

theorem exec_ld_frame {s : State} {m : Reg} {idx : CacheIndex} (d : Reg) (h : formIndex s m = .ok idx) :
    ∃ t, exec (.ld d m) s = .next t ∧
      getReg t d = memRead s idx ∧ SameRegsBut d s t ∧ t.eq = s.eq ∧ SameCache s t ∧
      validAt t idx = true ∧ SameValidBut idx s t ∧
      Completed s t (s.ip + 1#9) (accessCost (validAt s idx)) (validAt s idx) true :=
  have hexec := exec_ld_ok d h
  ⟨_, hexec, getReg_setReg_same _ d _, exec_ld_sameRegsBut hexec, rfl, fun _ => rfl, validAt_touch_same s idx,
    fun _ hj => validAt_touch_other s hj, completed_commit _ _ _ _ rfl⟩

theorem exec_st_frame {s : State} {m : Reg} {idx : CacheIndex} (r : Reg) (h : formIndex s m = .ok idx) :
    ∃ t, exec (.st m r) s = .next t ∧
      memRead t idx = getReg s r ∧ SameCacheBut idx s t ∧ SameRegs s t ∧ t.eq = s.eq ∧
      validAt t idx = true ∧ SameValidBut idx s t ∧
      Completed s t (s.ip + 1#9) (accessCost (validAt s idx)) (validAt s idx) true :=
  have hexec := exec_st_ok r h
  ⟨_, hexec, memRead_memWrite_same (touch s idx) idx _, fun _ hj => memRead_memWrite_other (touch s idx) _ hj,
    exec_st_sameRegs hexec, rfl, validAt_touch_same s idx, fun _ hj => validAt_touch_other s hj,
    completed_commit _ _ _ _ rfl⟩

/-- An LD or ST whose index faults raises that fault and commits nothing (R108). -/
theorem exec_access_faultedWith {i : Instr} {s : State} {m : Reg} {c : FaultCause}
    (hm : (controlRecord i).rm = some m) (h : formIndex s m = .error c) :
    ∃ t, exec i s = .next t ∧ FaultedWith c s t :=
  ⟨_, exec_access_error hm h, faultedWith_raiseFault c s⟩

/-! ### A register set before an access -/

@[simp] theorem setReg_setReg_same (s : State) (r : Reg) (v w : Byte) :
    setReg (setReg s r v) r w = setReg s r w := by
  simp [setReg]

theorem setReg_comm (s : State) {q r : Reg} (v w : Byte) (h : q ≠ r) :
    setReg (setReg s q v) r w = setReg (setReg s r w) q v := by
  have hval : q.val ≠ r.val := fun e => h (Fin.ext e)
  simp [setReg, Vector.set_comm _ _ hval]

/-- An LD through an index that setting `x[q]` leaves as it is answers with `x[q]` set beneath the byte loaded. -/
theorem exec_ld_setReg {s : State} {m q : Reg} {v : Byte} {idx : CacheIndex} (d : Reg)
    (h : formIndex (setReg s q v) m = .ok idx) :
    exec (.ld d m) (setReg s q v) = .next (commit (setReg (setReg (touch s idx) q v) d (memRead s idx))
      (s.ip + 1#9) (accessCost (validAt s idx)) (validAt s idx) true) :=
  exec_ld_ok d h

/-- An ST through an index that setting `x[q]` leaves as it is answers with `x[q]` set, if `x[q]` is not what it
stores. -/
theorem exec_st_setReg {s : State} {m q r : Reg} {v : Byte} {idx : CacheIndex} (hq : q ≠ r)
    (h : formIndex (setReg s q v) m = .ok idx) :
    exec (.st m r) (setReg s q v) = .next (setReg (commit (memWrite (touch s idx) idx (getReg s r)) (s.ip + 1#9)
      (accessCost (validAt s idx)) (validAt s idx) true) q v) := by
  rw [exec_st_ok r h, getReg_setReg_other s v hq.symm]
  rfl

end Sys2Proof.Machine

namespace Sys2Proof

open Machine

/-- Settles O16: the index by the equation of each configuration; the base register by what an LD and an ST can write. -/
theorem cacheIndexFormation : Obligations.CacheIndexFormation := by
  refine fun s m => ⟨fun hmode => ⟨_, formIndex_identifier s m hmode, rfl⟩, fun hmode hmask => ?_,
    fun hmode hreject hneg => formIndex_rejects hmode hreject hneg, fun hmode hreject hnonneg => ?_,
    fun d t hd h => exec_ld_sameRegsBut h m hd.symm, fun r t h => exec_st_sameRegs h m⟩
  · exact ⟨(getReg s m).toFin, formIndex_registerValue hmode rfl (.inl hmask), rfl⟩
  · have hidx : formIndex s m = .ok (getReg s m).toFin := formIndex_registerValue hmode rfl (.inr hnonneg)
    exact ⟨_, hidx, rfl, (formIndex_reach hidx).2 hmode hreject⟩

/-- Settles O17: its word is the one it encodes to, and it answers the commit of the byte loaded, or the fault of a
rejected index. -/
theorem ldLoadsCacheByte : Obligations.LdLoadsCacheByte :=
  ⟨fun d m => decode_encode (.ld d m),
    fun _ _ hfg => decode_bad_register_pair hfg 0x03#8 (by decide),
    fun d _ _ _ hidx => exec_ld_frame d hidx,
    fun _ _ _ hmode hreject hneg => exec_access_faultedWith rfl (formIndex_rejects hmode hreject hneg)⟩

/-- Settles O18: as LD, with the commit of the byte stored. -/
theorem stStoresRegisterByte : Obligations.StStoresRegisterByte :=
  ⟨fun m r => decode_encode (.st m r),
    fun _ _ hfg => decode_bad_register_pair hfg 0x04#8 (by decide),
    fun _ r _ _ hidx => exec_st_frame r hidx,
    fun _ _ _ hmode hreject hneg => exec_access_faultedWith rfl (formIndex_rejects hmode hreject hneg)⟩

/-- Settles O23: with and without `x[m]` set the index is the identifier, so the two answers differ by that register,
which an LD into it overwrites. -/
theorem identifierModeIgnoresRegisterValue : Obligations.IdentifierModeIgnoresRegisterValue := by
  intro s v hmode
  have hidx := fun m => formIndex_identifier s m hmode
  have hidxSet := fun m => formIndex_identifier (setReg s m v) m hmode
  refine ⟨fun d m hmd => ⟨_, exec_ld_ok d (hidx m), ?_⟩, fun d => ⟨_, exec_ld_ok d (hidx d), ?_⟩,
    fun m r hmr => ⟨_, exec_st_ok r (hidx m), exec_st_setReg hmr (hidxSet m)⟩⟩
  · rw [exec_ld_setReg d (hidxSet m), setReg_comm _ _ _ hmd]
    rfl
  · rw [exec_ld_setReg d (hidxSet d), setReg_setReg_same]

end Sys2Proof
end

section
/-! PROOFS. The faults of the block (60_exceptions.md R113 to R116): which one a step in RUNNING raises, what raising it
writes, and that only Reset leaves an ended run. -/

namespace Sys2Proof

/-- The word of an instruction, from its fields; the opcode is given as a number. -/
theorem encode_eq_append {i : Instr} {op op0 op1 : Byte} (hop : (encodeFields i).op.toNat = op.toNat)
    (h0 : (encodeFields i).op0 = op0) (h1 : (encodeFields i).op1 = op1) : encode i = op ++ op0 ++ op1 := by
  have hf : encodeFields i = ⟨op, op0, op1⟩ := Fields.eq_of_opcode_toNat hop h0 h1
  rw [encode, hf, wordOfFields]

theorem encodeReg_of_toNat {f : Byte} {r : Reg} (h : f.toNat = r.val) : encodeReg r = f :=
  BitVec.eq_of_toNat_eq ((encodeReg_toNat r).trans h.symm)

end Sys2Proof

namespace Sys2Proof.Machine

theorem faultCode_ne_seven (c : FaultCause) : faultCode c ≠ 7 := by cases c <;> decide

/-! ### The fault of a step (R113, R115) -/

section
variable {s : State} (hr : s.runState = .running)
include hr

theorem step_absent_faultedWith (hp : (slotAt s s.ip.toNat).present = false) :
    ∃ t, step s = .next t ∧ FaultedWith .fetchUnmapped s t :=
  ⟨_, step_running_error hr (fetchDecode_absent hp), faultedWith_raiseFault _ s⟩

variable (hp : (slotAt s s.ip.toNat).present = true)
include hp

theorem step_undecodable_faultedWith {f : DecodeFault} (hd : decode (slotAt s s.ip.toNat).word = .error f) :
    ∃ t, step s = .next t ∧ FaultedWith (decodeCause f) s t :=
  ⟨_, step_running_error hr (fetchDecode_undecodable hp hd), faultedWith_raiseFault _ s⟩

theorem step_eq_exec_of_encode {i : Instr} (hw : encode i = (slotAt s s.ip.toNat).word) : step s = exec i s :=
  step_running_ok hr (fetchDecode_ok hp (decode_eq_ok_iff.mpr hw))

/-- JMP, and JE with EQ set, to a target that does not resolve (R106). -/
theorem step_jump_faultedWith {op f : Byte} {c : FaultCause} (hop : op.toNat = 7 ∨ (op.toNat = 6 ∧ s.eq = true))
    (hw : (slotAt s s.ip.toNat).word = op ++ f ++ 0x00#8) (h : resolveTarget s f = .error c) :
    ∃ t, step s = .next t ∧ FaultedWith c s t := by
  rcases hop with hop | ⟨hop, he⟩
  · have henc : encode (.jmp f) = (slotAt s s.ip.toNat).word := hw ▸ encode_eq_append hop.symm rfl rfl
    rw [step_eq_exec_of_encode hr hp henc]
    exact exec_jmp_faultedWith h
  · have henc : encode (.je f) = (slotAt s s.ip.toNat).word := hw ▸ encode_eq_append hop.symm rfl rfl
    rw [step_eq_exec_of_encode hr hp henc]
    exact exec_je_set_faultedWith he h

/-- LD and ST through an index that is not formed (R107). -/
theorem step_access_faultedWith {op op0 op1 : Byte} {m : Reg} {c : FaultCause}
    (hop : (op.toNat = 3 ∧ op0.toNat ≤ 5 ∧ op1.toNat = m.val) ∨ (op.toNat = 4 ∧ op0.toNat = m.val ∧ op1.toNat ≤ 5))
    (hw : (slotAt s s.ip.toNat).word = op ++ op0 ++ op1) (h : formIndex s m = .error c) :
    ∃ t, step s = .next t ∧ FaultedWith c s t := by
  rcases hop with ⟨hop, h0, h1⟩ | ⟨hop, h0, h1⟩
  · obtain ⟨d, hd⟩ := exists_encodeReg h0
    have henc : encode (.ld d m) = (slotAt s s.ip.toNat).word :=
      hw ▸ encode_eq_append hop.symm hd (encodeReg_of_toNat h1)
    rw [step_eq_exec_of_encode hr hp henc]
    exact exec_access_faultedWith rfl h
  · obtain ⟨r, hs⟩ := exists_encodeReg h1
    have henc : encode (.st m r) = (slotAt s s.ip.toNat).word :=
      hw ▸ encode_eq_append hop.symm (encodeReg_of_toNat h0) hs
    rw [step_eq_exec_of_encode hr hp henc]
    exact exec_access_faultedWith rfl h

end

/-! ### The end of a run (R116) -/

/-- Outside IDLE and RUNNING every operation but Reset is ignored. -/
theorem applyOp_ignored {s : State} {op : HostOp} (hidle : s.runState ≠ .idle) (hrun : s.runState ≠ .running)
    (hreset : op ≠ .reset) : applyOp s op = s := by
  cases op with
  | reset => exact absurd rfl hreset
  | load a w => exact hostLoad_ignored a w hidle
  | start => exact hostStart_ignored hidle
  | step => exact hostStep_eq (step_not_running hrun)
  | observe q => rfl

end Sys2Proof.Machine

namespace Sys2Proof

open Machine

/-- Settles O28: fetch, then the decoder's first fault, then the target or the index of the instruction that the word
encodes. -/
theorem faultConditionsAndPriority : Obligations.FaultConditionsAndPriority := by
  refine ⟨⟨rfl, rfl, rfl, rfl, rfl, rfl, rfl, faultCode_ne_seven⟩,
    fun s op op0 op1 hr hw => ⟨step_absent_faultedWith hr, fun hp => ?_⟩⟩
  have hundecodable {f : DecodeFault} (hd : decode (op ++ op0 ++ op1) = .error f) :=
    step_undecodable_faultedWith hr hp (hw ▸ hd)
  refine ⟨fun hop => hundecodable (decode_illegal_opcode hop op0 op1),
    fun hop h0 => hundecodable (decode_illegal_first_register hop h0 op1),
    fun hop _ h1 => hundecodable (decode_bad_register_pair (.inr h1) op hop),
    fun hop h1 => hundecodable (decode_nonzero_reserved hop h1 op0),
    fun hop h1 hhi hrej => ?_, fun m hop hmode hreject hneg => ?_⟩
  · exact step_jump_faultedWith hr hp hop (h1 ▸ hw) (resolveTarget_rejects hhi hrej)
  · exact step_access_faultedWith hr hp hop hw (formIndex_rejects hmode hreject hneg)

/-- Settles O29: a step that ends in FAULTED answers `raiseFault`, which writes the three fields. -/
theorem faultsArePrecise : Obligations.FaultsArePrecise := by
  refine ⟨faultedWith_raiseFault, fun s t hr h hf => ?_⟩
  obtain ⟨c, rfl⟩ := step_eq_raiseFault hr h hf
  rfl

/-- Settles O30, by induction on the operations: each is ignored. -/
theorem endedRunIsLeftOnlyByReset : Obligations.EndedRunIsLeftOnlyByReset := by
  intro s ops hended hreset
  have ⟨hidle, hrun⟩ : s.runState ≠ .idle ∧ s.runState ≠ .running := by rcases hended with h | h <;> simp [h]
  refine applyOps_induct (P := (· = s)) (fun u op hop hu => ?_) s rfl
  subst hu
  exact applyOp_ignored hidle hrun (ne_of_mem_of_not_mem hop hreset)

end Sys2Proof
end

section
/-! PROOFS. The laws of the accumulator (70_reset_and_hazards.md R145): what the list of retired instructions says of
the counters, and what the validity bitmap says of the misses. -/

namespace Sys2Proof.Machine

/-! ### What retires -/

/-- What a run retires, one of its steps completed. -/
theorem completedBy_of_mem_retiredIn {k : Nat} {s : State} {r : Retired} (h : r ∈ retiredIn k s) :
    ∃ u, completedBy u = some r := by
  induction k generalizing s with
  | zero => cases h
  | succ k ih =>
    rcases List.mem_append.mp h with h | h
    · exact ⟨s, Option.mem_toList.mp h⟩
    · exact ih h

theorem isMemInstr_of_retiredAs_hit {i : Instr} {s : State} (h : (retiredAs i s).hit = true) :
    isMemInstr i = true := by
  cases i with
  | ld d m | st m r => rfl
  | _ => cases h

/-- Only a load or a store hits (R86). -/
theorem isMemInstr_of_hit {k : Nat} {s : State} {r : Retired} (h : r ∈ retiredIn k s) (hhit : r.hit = true) :
    isMemInstr r.instr = true := by
  obtain ⟨u, hu⟩ := completedBy_of_mem_retiredIn h
  obtain ⟨-, i, -, -, -, -, -, rfl⟩ := completedBy_eq_some hu
  rw [retiredAs_instr]
  exact isMemInstr_of_retiredAs_hit hhit

theorem Retired.one_le_cost (r : Retired) : 1 ≤ r.cost := by
  obtain ⟨i, hit⟩ := r
  cases i with
  | cmp d s => exact one_le_two
  | ld d m | st m s =>
    show 1 ≤ if hit = true then 2 else 40
    split <;> decide
  | _ => exact le_rfl

theorem Retired.cost_of_isMovAdd {r : Retired} (h : isMovAddInstr r.instr = true) : r.cost = 1 := by
  obtain ⟨i, hit⟩ := r
  cases i with
  | mov d imm | add d s | addi d imm => rfl
  | _ => cases h

theorem isMemInstr_of_isMovAdd {i : Instr} (h : isMovAddInstr i = true) : isMemInstr i = false := by
  cases i with
  | ld d m | st m r => cases h
  | _ => rfl

/-- The table of R85 as a sum over the classes of R145, a hit taking 38 off the 40 of a load or store. -/
theorem Retired.cost_by_class (r : Retired) (h : r.hit = true → isMemInstr r.instr = true) :
    r.cost + 40 * (if r.hit = true then 1 else 0) =
      (if isOneCostInstr r.instr = true then 1 else 0) + 2 * (if isCmpInstr r.instr = true then 1 else 0) +
        2 * (if r.hit = true then 1 else 0) + 40 * (if isMemInstr r.instr = true then 1 else 0) := by
  obtain ⟨i, hit⟩ := r
  cases hit with
  | false => cases i <;> rfl
  | true =>
    cases i with
    | ld d m | st m r => rfl
    | _ => cases h rfl

/-! ### Sums over what retired -/

section
variable {rs : List Retired} (h : ∀ r ∈ rs, r.hit = true → isMemInstr r.instr = true)
include h

theorem sum_cost_by_class :
    (rs.map Retired.cost).sum + 40 * (rs.countP fun r => r.hit) =
      (rs.countP fun r => isOneCostInstr r.instr) + 2 * (rs.countP fun r => isCmpInstr r.instr) +
        2 * (rs.countP fun r => r.hit) + 40 * (rs.countP fun r => isMemInstr r.instr) := by
  induction rs with
  | nil => rfl
  | cons r rs ih =>
    have hr := r.cost_by_class (h r List.mem_cons_self)
    have hrs := ih fun q hq => h q (List.mem_cons_of_mem r hq)
    simp only [List.map_cons, List.sum_cons, List.countP_cons]
    omega

theorem countP_hit_le_countP_isMem : (rs.countP fun r => r.hit) ≤ rs.countP fun r => isMemInstr r.instr :=
  List.countP_mono_left h

theorem countP_hit_of_isMovAdd (hmov : ∀ r ∈ rs, isMovAddInstr r.instr = true) :
    (rs.countP fun r => r.hit) = 0 := by
  refine List.countP_eq_zero.mpr fun r hr hhit => ?_
  have hmem := h r hr hhit
  rw [isMemInstr_of_isMovAdd (hmov r hr)] at hmem
  cases hmem

end

theorem length_le_sum_cost (rs : List Retired) : rs.length ≤ (rs.map Retired.cost).sum := by
  have hone : ∀ n ∈ rs.map Retired.cost, 1 ≤ n := by
    intro n hn
    obtain ⟨r, -, rfl⟩ := List.mem_map.mp hn
    exact r.one_le_cost
  simpa using List.length_le_sum_of_one_le _ hone

theorem sum_cost_of_isMovAdd {rs : List Retired} (hmov : ∀ r ∈ rs, isMovAddInstr r.instr = true) :
    (rs.map Retired.cost).sum = rs.length := by
  rw [List.map_congr_left fun r hr => Retired.cost_of_isMovAdd (hmov r hr)]
  simp

/-! ### Counters that do not wrap -/

theorem counterHolds_of_le {w : CounterWidth} {m n : Nat} (h : counterHolds w n) (hle : m ≤ n) :
    counterHolds w m := by
  cases w with
  | bits k => exact hle.trans_lt h
  | unbounded => trivial

theorem countAdd_from_zero {w : CounterWidth} {n : Nat} (h : counterHolds w n) : countAdd w 0 n = n := by
  cases w with
  | bits k => rw [countAdd, Nat.zero_add]; exact Nat.mod_eq_of_lt h
  | unbounded => exact Nat.zero_add n

/-- From zero, and while the largest of them does not wrap, the counters are what retired (R145). -/
theorem CountersMovedBy.exact {rs : List Retired} {s t : State} (h : CountersMovedBy rs s t)
    (hexec : s.execCount = 0) (hcycles : s.cycles = 0) (hhits : s.hits = 0) (hldst : s.ldst = 0)
    (hfit : counterHolds s.config.counterWidth (rs.map Retired.cost).sum) :
    t.execCount = rs.length ∧ t.cycles = (rs.map Retired.cost).sum ∧ t.hits = (rs.countP fun r => r.hit) ∧
      t.ldst = rs.countP fun r => isMemInstr r.instr := by
  have hlen := length_le_sum_cost rs
  have hcount (p : Retired → Bool) : countAdd s.config.counterWidth 0 (rs.countP p) = rs.countP p :=
    countAdd_from_zero (counterHolds_of_le hfit (List.countP_le_length.trans hlen))
  rw [h.execCount, h.cycles, h.hits, h.ldst, hexec, hcycles, hhits, hldst]
  exact ⟨countAdd_from_zero (counterHolds_of_le hfit hlen), countAdd_from_zero hfit, hcount _, hcount _⟩

/-! ### Each miss touches an index -/

theorem SameValid.touchedCount_eq {s t : State} (h : SameValid s t) : touchedCount t = touchedCount s := by
  simp only [touchedCount, h _]

/-- A completed load or store hits, or touches one index more (R39, R42). -/
theorem exec_touchedCount {i : Instr} {s t : State} (h : exec i s = .next t) (hn : t.runState ≠ .faulted) :
    touchedCount t + (if (retiredAs i s).hit = true then 1 else 0) =
      touchedCount s + (if isMemInstr i = true then 1 else 0) := by
  cases i with
  | ld d m =>
    obtain ⟨idx, hidx, rfl⟩ := exec_ld_completed h hn
    simp only [retiredAs, accessHits, hidx]
    exact touchedCount_touch s idx
  | st m r =>
    obtain ⟨idx, hidx, rfl⟩ := exec_st_completed h hn
    simp only [retiredAs, accessHits, hidx]
    exact touchedCount_touch s idx
  | _ => exact (exec_sameValid rfl h).touchedCount_eq

/-- A step touches one index more for each access it retires that did not hit. -/
theorem hostStep_touchedCount (s : State) :
    touchedCount (hostStep s) + ((completedBy s).toList.countP fun r => r.hit) =
      touchedCount s + ((completedBy s).toList.countP fun r => isMemInstr r.instr) := by
  cases hc : completedBy s with
  | some r =>
    obtain ⟨-, i, t, -, ht, hs, hn, rfl⟩ := completedBy_eq_some hc
    have := exec_touchedCount ht hn
    simpa [hs, List.countP_singleton, retiredAs_instr] using this
  | none => rcases completedBy_eq_none hc with hs | ⟨c, hs⟩ <;> rw [hs] <;> rfl

/-- Over a run, loads and stores are the hits and one miss for each index newly touched (R42, R145). -/
theorem runFor_touchedCount (k : Nat) (s : State) :
    touchedCount (runFor k s) + ((retiredIn k s).countP fun r => r.hit) =
      touchedCount s + ((retiredIn k s).countP fun r => isMemInstr r.instr) := by
  induction k generalizing s with
  | zero => rfl
  | succ k ih =>
    have hstep := hostStep_touchedCount s
    have hrest := ih (hostStep s)
    simp only [runFor, retiredIn, List.countP_append]
    omega

/-! ### Identifier mode touches six indexes at most (R35) -/

/-- Identifier mode, with no index above 5 touched. -/
structure TouchesIdentifiersOnly (s : State) : Prop where
  mode    : s.config.addrMode = .identifier
  touched : ∀ idx : CacheIndex, validAt s idx = true → idx.val ≤ 5

theorem Ending.touchesIdentifiersOnly {s t : State} (he : Ending s t) (hs : TouchesIdentifiersOnly s) :
    TouchesIdentifiersOnly t := by
  have haccess {m : Reg} {idx : CacheIndex} (h : formIndex s m = .ok idx) (j : CacheIndex)
      (hj : validAt (touch s idx) j = true) : j.val ≤ 5 := by
    rw [validAt_touch, Bool.or_eq_true, decide_eq_true_iff] at hj
    rcases hj with rfl | hj
    · exact (formIndex_reach h).1 hs.mode
    · exact hs.touched j hj
  cases he with
  | loads m r idx h => exact ⟨hs.mode, haccess h⟩
  | stores m r idx h => exact ⟨hs.mode, haccess h⟩
  | _ => exact ⟨hs.mode, hs.touched⟩

theorem hostStep_touchesIdentifiersOnly {s : State} (h : TouchesIdentifiersOnly s) :
    TouchesIdentifiersOnly (hostStep s) := by
  rcases step_ending s with ⟨-, hs⟩ | ⟨-, t, hs, he⟩ <;> rw [hostStep_eq hs]
  · exact h
  · exact he.touchesIdentifiersOnly h

theorem runFor_touchesIdentifiersOnly (k : Nat) {s : State} (h : TouchesIdentifiersOnly s) :
    TouchesIdentifiersOnly (runFor k s) := by
  induction k generalizing s with
  | zero => exact h
  | succ k ih => exact ih (hostStep_touchesIdentifiersOnly h)

theorem TouchesIdentifiersOnly.touchedCount_le {s : State} (h : TouchesIdentifiersOnly s) : touchedCount s ≤ 6 := by
  have hsub : (Finset.univ.filter fun idx : CacheIndex => validAt s idx = true) ⊆ Finset.Iic 5 := by
    intro idx hidx
    exact Finset.mem_Iic.mpr (h.touched idx (Finset.mem_filter.mp hidx).2)
  calc touchedCount s ≤ (Finset.Iic (5 : CacheIndex)).card := Finset.card_le_card hsub
    _ = 6 := Fin.card_Iic 5

/-- In Identifier mode, with nothing touched before, at most six accesses of a run miss (R145). -/
theorem retiredIn_misses_le {s : State} (hmode : s.config.addrMode = .identifier)
    (hv : ∀ idx : CacheIndex, validAt s idx = false) (k : Nat) :
    ((retiredIn k s).countP fun r => isMemInstr r.instr) - ((retiredIn k s).countP fun r => r.hit) ≤ 6 := by
  have hstart : TouchesIdentifiersOnly s := ⟨hmode, fun idx h => by rw [hv idx] at h; cases h⟩
  have hend := (runFor_touchesIdentifiersOnly k hstart).touchedCount_le
  have hrun := runFor_touchedCount k s
  rw [touchedCount_zero s hv] at hrun
  omega

end Sys2Proof.Machine

namespace Sys2Proof

open Machine

/-- Settles O47: the counters are sums over what retired, and each miss touches one of six indexes. -/
theorem accumulatorLaws : Obligations.AccumulatorLaws := by
  intro k s hexec hcycles hhits hldst hfit
  have hzero := counterHolds_zero s.config.counterWidth
  have hmoved := runFor_countersMovedBy k (s := s)
    ⟨by rwa [hexec], by rwa [hcycles], by rwa [hhits], by rwa [hldst]⟩
  obtain ⟨hexec', hcycles', hhits', hldst'⟩ := hmoved.exact hexec hcycles hhits hldst hfit
  have hmem : ∀ r ∈ retiredIn k s, r.hit = true → isMemInstr r.instr = true := fun _ => isMemInstr_of_hit
  have hle := countP_hit_le_countP_isMem hmem
  rw [hexec', hcycles', hhits', hldst']
  refine ⟨fun hmov => ⟨sum_cost_of_isMovAdd hmov, countP_hit_of_isMovAdd hmem hmov⟩, ?_, hle,
    List.countP_le_length, fun hmode hv => retiredIn_misses_le hmode hv k⟩
  have hsum := sum_cost_by_class hmem
  omega

end Sys2Proof
end

section
/-! PROOFS. Step, Load and Observe, and every sequence of host operations (70_reset_and_hazards.md R129 to R136). -/

namespace Sys2Proof.Machine

/-- A step that cannot fetch or decode completes nothing. -/
theorem completedBy_of_fetchDecode_error {s : State} {c : FaultCause} (hd : fetchDecode s = .error c) :
    completedBy s = none := by
  simp [completedBy, hd]

/-- A step completes the instruction it fetched and decoded unless that faults. -/
theorem completedBy_of_fetchDecode_ok {s : State} {i : Instr} (hr : s.runState = .running)
    (hd : fetchDecode s = .ok i) :
    completedBy s = if (hostStep s).runState = .faulted then none else some (retiredAs i s) := by
  simp [completedBy, acceptsStep, hr, hd]

/-- An instruction that ends in FAULTED only raised a fault, with a cause (R114). -/
theorem Ending.eq_raiseFault {s t : State} (he : Ending s t) (hr : s.runState = .running)
    (hf : t.runState = .faulted) : ∃ c, c ≠ .noFault ∧ t = raiseFault c s := by
  rcases ending_faults_or_commits he with hfault | ⟨u, p, n, k, m, rfl, hu⟩
  · exact hfault
  · exact absurd hf (commit_runState_ne_faulted hr p n k m hu)

/-- In RUNNING a step completes the instruction fetched and decoded, or raises one fault (R81, R135). -/
theorem step_completes_or_faults {s : State} (hr : s.runState = .running) :
    (∃ i t, completedBy s = some (retiredAs i s) ∧ fetchDecode s = .ok i ∧ step s = .next t ∧ exec i s = .next t ∧
      t.runState ≠ .faulted) ∨
    (∃ c, completedBy s = none ∧ step s = .next (raiseFault c s) ∧ c ≠ .noFault) := by
  cases hd : fetchDecode s with
  | error c =>
    exact .inr ⟨c, completedBy_of_fetchDecode_error hd, step_running_error hr hd, fetchDecode_error_ne_noFault hd⟩
  | ok i =>
    obtain ⟨t, ht, he⟩ := exec_ending i s
    have hstep := (step_running_ok hr hd).trans ht
    have hc := completedBy_of_fetchDecode_ok hr hd
    rw [hostStep_eq hstep] at hc
    by_cases hf : t.runState = .faulted
    · obtain ⟨c, hne, rfl⟩ := he.eq_raiseFault hr hf
      exact .inr ⟨c, hc.trans (if_pos hf), hstep, hne⟩
    · exact .inl ⟨i, t, hc.trans (if_neg hf), rfl, hstep, ht, hf⟩

theorem slotAt_storeWord_same (s : State) (a : SlotAddr) (w : InstrWord) :
    slotAt (storeWord s a w) a.val = ⟨true, w⟩ := by
  rw [slotAt_storeWord, if_pos rfl]

theorem slotAt_storeWord_other (s : State) {a : SlotAddr} {b : Nat} (w : InstrWord) (h : b ≠ a.val) :
    slotAt (storeWord s a w) b = slotAt s b := by
  rw [slotAt_storeWord, if_neg h.symm]

end Sys2Proof.Machine

namespace Sys2Proof

open Machine

/-- Settles O25: outside RUNNING a step answers the same state; in it, what the decoded instruction answers or the fault
raised. -/
theorem stepOnlyActsWhileRunning : Obligations.StepOnlyActsWhileRunning := by
  refine fun s => ⟨fun hn => ⟨step_not_running hn, hostStep_eq (step_not_running hn)⟩, fun hr => ?_⟩
  rcases step_completes_or_faults hr with ⟨i, t, hc, hd, hstep, hexec, hne⟩ | ⟨c, hc, hstep, hne⟩
  · exact .inl ⟨_, t, hc, hstep, by rwa [retiredAs_instr], by rwa [retiredAs_instr], hne⟩
  · exact .inr ⟨c, _, hc, hstep, hne, faultedWith_raiseFault c s⟩

/-- Settles O34: an accepted Load is the storing of a word. -/
theorem loadWritesSlotAndNarrowsBounds : Obligations.LoadWritesSlotAndNarrowsBounds := by
  refine fun s a w => ⟨fun h => ?_, hostLoad_ignored a w⟩
  rw [hostLoad_idle a w h]
  exact ⟨slotAt_storeWord_same s a w, fun _ hb => slotAt_storeWord_other s w hb, storeWord_entry_toInt s a w,
    storeWord_exit_toInt s a w, rfl⟩

/-- Settles O41: each operation keeps the invariant, and so by induction does a sequence of them. -/
theorem everyHostOperationKeepsTheInvariant : Obligations.EveryHostOperationKeepsTheInvariant :=
  fun _ ops hi => applyOps_inv hi ops

/-- Settles O36: an answer is the item itself, and `applyOp` of an Observe is the state itself, by definition. -/
theorem observeReadsWithoutEffect : Obligations.ObserveReadsWithoutEffect := fun _ _ _ _ _ =>
  ⟨rfl, rfl, rfl, rfl, rfl, rfl, rfl, rfl, rfl, rfl, rfl, rfl, rfl, rfl, rfl, rfl⟩

end Sys2Proof
end

section
/-! PROOFS. The boot sequence (70_reset_and_hazards.md R139): Reset, a Load for each word, Start. -/

namespace Sys2Proof.Machine

@[simp] theorem loadAll_cons (s : State) (p : SlotAddr × InstrWord) (words : List (SlotAddr × InstrWord)) :
    loadAll s (p :: words) = loadAll (hostLoad p.1 p.2 s) words := rfl

/-- Loading a program is a sequence of host operations (R131). -/
theorem loadAll_eq_applyOps (s : State) (words : List (SlotAddr × InstrWord)) :
    loadAll s words = applyOps s (words.map fun p => .load p.1 p.2) := by
  rw [applyOps, List.foldl_map]
  rfl

@[simp] theorem hostLoad_runState (a : SlotAddr) (w : InstrWord) (s : State) :
    (hostLoad a w s).runState = s.runState := by
  by_cases h : s.runState = .idle
  · rw [hostLoad_idle a w h, storeWord_runState]
  · rw [hostLoad_ignored a w h]

@[simp] theorem loadAll_runState (s : State) (words : List (SlotAddr × InstrWord)) :
    (loadAll s words).runState = s.runState := by
  induction words generalizing s with
  | nil => rfl
  | cons p words ih => rw [loadAll_cons, ih, hostLoad_runState]

@[simp] theorem loadAll_config (s : State) (words : List (SlotAddr × InstrWord)) :
    (loadAll s words).config = s.config := by
  rw [loadAll_eq_applyOps, applyOps_config]

theorem loadAll_resetWith_inv (c : Config) (words : List (SlotAddr × InstrWord)) :
    (loadAll (State.resetWith c) words).Inv := by
  rw [loadAll_eq_applyOps]
  exact reachable_inv c _

/-- Loading leaves the slots of all other addresses (R133). -/
theorem slotAt_loadAll_other {s : State} (h : s.runState = .idle) {words : List (SlotAddr × InstrWord)} {a : Nat}
    (ha : ∀ p ∈ words, p.1.val ≠ a) : slotAt (loadAll s words) a = slotAt s a := by
  induction words generalizing s with
  | nil => rfl
  | cons p words ih =>
    have hp := ha p List.mem_cons_self
    have hstored : (storeWord s p.1 p.2).runState = .idle := h
    rw [loadAll_cons, hostLoad_idle p.1 p.2 h, ih hstored fun q hq => ha q (List.mem_cons_of_mem p hq),
      slotAt_storeWord_other s p.2 hp.symm]

/-- At distinct addresses no word is overwritten by a later one (R133). -/
theorem slotAt_loadAll_mem {s : State} (h : s.runState = .idle) {words : List (SlotAddr × InstrWord)}
    (hnodup : (words.map Prod.fst).Nodup) {p : SlotAddr × InstrWord} (hp : p ∈ words) :
    slotAt (loadAll s words) p.1.val = ⟨true, p.2⟩ := by
  induction words generalizing s with
  | nil => cases hp
  | cons q words ih =>
    obtain ⟨hq, hrest⟩ := List.nodup_cons.mp hnodup
    have hstored : (storeWord s q.1 q.2).runState = .idle := h
    rw [loadAll_cons, hostLoad_idle q.1 q.2 h]
    rcases List.mem_cons.mp hp with rfl | hp
    · have hlater : ∀ r ∈ words, r.1.val ≠ p.1.val := fun r hr e =>
        hq (List.mem_map.mpr ⟨r, hr, Fin.ext e⟩)
      rw [slotAt_loadAll_other hstored hlater, slotAt_storeWord_same]
    · exact ih hstored hrest hp

/-- A program at the addresses of `words` is present there and nowhere else, so its ENTRY is the least of them (R22). -/
theorem Inv_entry_least {s : State} (hi : s.Inv) {words : List (SlotAddr × InstrWord)} (hne : words ≠ [])
    (hpresent : ∀ p ∈ words, (slotAt s p.1.val).present = true)
    (habsent : ∀ a : Nat, (∀ p ∈ words, p.1.val ≠ a) → (slotAt s a).present = false) :
    ∃ p ∈ words, s.entry.toInt = (p.1.val : Int) ∧ s.entry.toInt ≤ s.exit.toInt ∧
      ∀ q ∈ words, p.1.val ≤ q.1.val := by
  obtain ⟨p₀, hp₀⟩ := List.exists_mem_of_ne_nil words hne
  obtain ⟨lo, up, hentry, hexit, hlo, hup, hleast⟩ := Inv_bounds_of_present hi (hpresent p₀ hp₀)
  obtain ⟨p, hp, hpa⟩ : ∃ p ∈ words, p.1.val = lo.val := by
    by_contra hnone
    push Not at hnone
    rw [habsent lo.val hnone] at hlo
    cases hlo
  have horder : lo.val ≤ up.val := (hleast up hup).1
  exact ⟨p, hp, by omega, by omega, fun q hq => hpa ▸ (hleast q.1 (hpresent q hq)).1⟩

end Sys2Proof.Machine

namespace Sys2Proof

open Machine

/-- Settles O38: the loaded program meets the invariant, so ENTRY is its least address and the rest is as reset left
it; Start then sets IP and the run state. -/
theorem bootStartsAtLeastLoadedAddress : Obligations.BootStartsAtLeastLoadedAddress := by
  intro words s hne hnodup
  have hidle := loadAll_runState (State.resetWith s.config) words
  have hconfig := loadAll_config (State.resetWith s.config) words
  have hi := loadAll_resetWith_inv s.config words
  have hmem := fun p hp => slotAt_loadAll_mem (resetWith_runState s.config) hnodup (p := p) hp
  have hother := fun a ha => (slotAt_loadAll_other (resetWith_runState s.config) (words := words) (a := a) ha).trans
    (slotAt_resetWith s.config a)
  have hboot : boot words s = hostStart (loadAll (State.resetWith s.config) words) := rfl
  rw [hboot]
  generalize loadAll (State.resetWith s.config) words = t at *
  obtain ⟨p, hp, hentry, hle, hleast⟩ := Inv_entry_least hi hne (fun p hp => by rw [hmem p hp])
    (fun a ha => by rw [hother a ha])
  have hslots := (hostStart_sameProgram t).slots
  refine ⟨fun p hp => (hslots _).trans (hmem p hp), fun a ha => (hslots a).trans (hother a ha), ?_⟩
  rw [hostStart_idle hidle]
  refine ⟨⟨p, hp, ?_, hleast⟩, if_pos hle, ?_⟩
  · have hip := (Inv_entry_toNat hi).1
    dsimp only
    omega
  · rw [resetWith_config] at hconfig
    rw [hi.idle hidle, hconfig]

end Sys2Proof
end

section
/-! PROOFS. The ports (70_reset_and_hazards.md R131, R132): what each output shows, and that requests act in order. -/

namespace Sys2Proof.Machine

theorem applyOps_append (s : State) (ops ops' : List HostOp) :
    applyOps s (ops ++ ops') = applyOps (applyOps s ops) ops' :=
  List.foldl_append

/-- One request port: its operation acts if it is presented. -/
theorem applyOps_ite (s : State) (b : Bool) (op : HostOp) :
    applyOps s (if b = true then [op] else []) = if b = true then applyOp s op else s := by
  cases b <;> rfl

/-- The requests presented act one after another in the order Reset, Load, Start, Step (R131, log 9). -/
theorem portApply_in_order (p : PortIn) (s : State) :
    let afterReset := if p.rst = true then hostReset s else s
    let afterLoad := if p.loadEn = true then hostLoad p.loadAddr.toFin p.loadWord afterReset else afterReset
    let afterStart := if p.start = true then hostStart afterLoad else afterLoad
    portApply p s = if p.step = true then hostStep afterStart else afterStart := by
  simp only [portApply, requestedOps, applyOps_append, applyOps_ite, applyOp]

theorem portOut_obsReg_above {p : PortIn} (h : 5 < p.obsRegSel.toNat) (s : State) :
    (portOut p s).obsReg = 0x00#8 :=
  dif_neg (by omega)

theorem portOut_obsReg {p : PortIn} {r : Reg} (h : p.obsRegSel.toNat = r.val) (s : State) :
    (portOut p s).obsReg = getReg s r := by
  have hlt : p.obsRegSel.toNat < 6 := by omega
  exact (dif_pos hlt).trans (congrArg (getReg s) (Fin.ext h))

/-- A Load and then a Start in IDLE run the program the word is in, from the lesser of ENTRY and its address. -/
theorem hostStart_hostLoad_idle {s : State} (h : s.runState = .idle) (a : SlotAddr) (w : InstrWord) :
    slotAt (hostStart (hostLoad a w s)) a.val = ⟨true, w⟩ ∧
      (hostStart (hostLoad a w s)).ip = BitVec.ofInt 9 (min s.entry.toInt (a.val : Int)) ∧
      (hostStart (hostLoad a w s)).runState = .running := by
  have hentry := storeWord_entry_toInt s a w
  have hexit := storeWord_exit_toInt s a w
  have hidle : (storeWord s a w).runState = .idle := h
  rw [hostLoad_idle a w h, (hostStart_sameProgram _).slots, hostStart_idle hidle]
  exact ⟨slotAt_storeWord_same s a w, congrArg (BitVec.ofInt 9) hentry, if_pos (by omega)⟩

end Sys2Proof.Machine

namespace Sys2Proof

open Machine

/-- Settles O37: an output port is its item by definition, the selected register by the range of the select; requests
are the host operations of `requestedOps` applied in its order. -/
theorem portsShowStateAndApplyRequests : Obligations.PortsShowStateAndApplyRequests := by
  refine ⟨⟨rfl, rfl, rfl, rfl⟩, ⟨rfl, rfl, rfl, rfl, rfl, rfl, rfl⟩, fun p s => ?_⟩
  refine ⟨rfl, rfl, rfl, rfl, rfl, rfl, rfl, rfl, rfl, rfl, rfl, fun h => portOut_obsReg_above h s,
    fun r h => portOut_obsReg h s, rfl, rfl, rfl, rfl, portApply_in_order p s,
    fun hidle hrst hload hstart hstep => ?_⟩
  have happly : portApply p s = hostStart (hostLoad p.loadAddr.toFin p.loadWord s) := by
    simpa [hrst, hload, hstart, hstep] using portApply_in_order p s
  rw [happly]
  exact hostStart_hostLoad_idle hidle p.loadAddr.toFin p.loadWord

end Sys2Proof
end

section
/-! PROOFS. Words of the spec's vectors (95_test_vectors.md V-DEC-1 to V-DEC-11, V-LS-4, W1, W2): what each encodes, or
which of the decoder's faults it is an instance of (30_encoding.md R62 to R64, R68). -/

namespace Sys2Proof

/-- Settles O5: each of the eight words is its instruction's encoding, and each of the six others meets the condition of
its fault, 0xFF0900 that of the opcode, which comes before its register field. -/
theorem specVectorWordsDecode : Obligations.SpecVectorWordsDecode :=
  ⟨decode_encode (.mov 0 0x05#8), decode_encode (.add 5 0), decode_encode (.addi 0 0xFF#8), decode_encode (.ld 1 0),
    decode_encode (.st 2 3), decode_encode (.cmp 0 1), decode_encode (.je 0x0F#8), decode_encode (.jmp 0xFD#8),
    decode_illegal_first_register (op := 0x01#8) (op0 := 0x06#8) (by decide) (by decide) 0x00#8,
    decode_illegal_opcode (op := 0x08#8) (by decide) 0x00#8 0x00#8,
    decode_illegal_opcode (op := 0xFF#8) (by decide) 0x09#8 0x00#8,
    decode_nonzero_reserved (op := 0x06#8) (op1 := 0x01#8) (by decide) (by decide) 0x0F#8,
    decode_bad_register_pair (f := 0x00#8) (g := 0x06#8) (.inr (by decide)) 0x03#8 (by decide),
    decode_illegal_first_register (op := 0x04#8) (op0 := 0x06#8) (by decide) (by decide) 0x00#8⟩

end Sys2Proof
end
